-- ==== Sys2Proof/Word.lean ====
section
/-! DEFINITION. The widths the spec's values have (00_scope R10): bytes, 16-bit and 32-bit words, the eight-byte
frame (30_encoding R103) and the 45-byte line (10_state R31). -/

namespace Sys2Proof

/-- `u8` of 00_scope R10. -/
abbrev Byte := BitVec 8

/-- `u16` of 00_scope R10. -/
abbrev Half := BitVec 16

/-- `u32` of 00_scope R10. -/
abbrev Word := BitVec 32

/-- `u64` of 00_scope R10: the frame word `w` of R11. -/
abbrev FrameWord := BitVec 64

/-- The eight bytes `buf[0] .. buf[7]` of a frame, `buf[0]` first (00_scope R11, 30_encoding R103). -/
abbrev Frame := Vector Byte 8

/-- The 45 bytes of the LINE space, address 0 first (10_state R31, 20_memory R70). -/
abbrev Line := Vector Byte 45

/-- The pad byte `0xFF` (00_scope R7, R17). -/
def padByte : Byte := 0xFF#8

/-- `low16(v) = v[15:0]` (00_scope R12). -/
def low16 (v : Word) : Half := v.setWidth 16

end Sys2Proof
end

