-- ==== Sys2Proof/Config.lean ====
section
/-! DEFINITION. What an implementation fixes (00_scope R8, 10_state R37) and the values nothing in the spec fixes.
The parameters are one record of plain data, which rides in the state so that every statement about a state holds for
every choice of them (assumption log 8). -/

namespace Sys2Proof

/-- The named parameters of 00_scope R8. Constant for the life of the block (10_state R37): no operation writes them.
`flashRegions` is the predicate `IN_FLASH`, written as a list of half-open address ranges (log 9); `debug` is read by
no rule, since log calls have no effect (60_exceptions R336, log 30). -/
structure Config where
  /-- `T_SEGMENT_MS`, the per-line retransmit timeout in ms. -/
  tSegmentMs : Word
  /-- `T_TRANSFER_MS`, the inactivity timeout in ms. -/
  tTransferMs : Word
  /-- `FLASH_BASE_ADDR`: the address the image's addresses are relative to. -/
  flashBaseAddr : Word
  /-- `FLASH_BUFFER_BASE`: first address of the staging window. -/
  flashBufferBase : Word
  /-- `FLASH_BUFFER_SIZE`: bytes in the staging window. -/
  flashBufferSize : Word
  /-- `IN_FLASH`: the addresses that are flash, as ranges `[lo, hi)`. -/
  flashRegions : List (Nat × Nat)
  /-- `DEBUG`: log calls enabled. -/
  debug : Bool
  /-- `DRY_RUN`: no flash write, no copy. -/
  dryRun : Bool
  /-- `HEX_ACCEPT_LOWER`: `a` to `f` are hex digits too. -/
  hexAcceptLower : Bool
  /-- `IDLE_BAD_INIT_REPORT`: a bad Init received while idle produces `ERROR`. -/
  idleBadInitReport : Bool
  /-- `RESP_PAD`: the six reserved response bytes. -/
  respPad : Byte
  deriving DecidableEq, Repr

/-- OPEN parameter `FLASH_BASE_ADDR` of this platform (00_scope R8, 91 N9): no value is known. -/
opaque Config.openFlashBaseAddr : Word

/-- OPEN parameter `FLASH_BUFFER_BASE` of this platform (00_scope R8, 91 N9). -/
opaque Config.openFlashBufferBase : Word

/-- OPEN parameter `FLASH_BUFFER_SIZE` of this platform (00_scope R8, 91 N9). -/
opaque Config.openFlashBufferSize : Word

/-- OPEN parameter `IN_FLASH` of this platform (00_scope R8, 91 N9). -/
opaque Config.openFlashRegions : List (Nat × Nat)

/-- OPEN parameter `DEBUG` of this platform (00_scope R8, 91 N9). -/
opaque Config.openDebug : Bool

/-- OPEN parameter `DRY_RUN` of this platform (00_scope R8, 91 N9). -/
opaque Config.openDryRun : Bool

/-- The parameters of the machine after reset: the values of 00_scope R8, and for the OPEN ones constants that
nothing can evaluate (log 8). -/
def Config.platform : Config where
  tSegmentMs := 5000#32
  tTransferMs := 15000#32
  flashBaseAddr := Config.openFlashBaseAddr
  flashBufferBase := Config.openFlashBufferBase
  flashBufferSize := Config.openFlashBufferSize
  flashRegions := Config.openFlashRegions
  debug := Config.openDebug
  dryRun := Config.openDryRun
  hexAcceptLower := true
  idleBadInitReport := false
  respPad := 0x00#8

/-- FREE VALUE (log 11). The bytes of `STAGE` that a failed flash write leaves are unspecified (20_memory R80, 93 U9):
the `n`-th one drawn has the value of this constant at `n`, which nothing can evaluate. -/
opaque Config.failedFlashByte : Nat → Byte

/-- FREE VALUE (log 33). `PARSE_LINE` assigns `byte_count`, `address`, `record_type` and `checksum` to a valid result only
(43_hex_line R204), and they are meaningless in one with `valid = 0` (10_state R36): byte `n` of them, for a line with
this text under this value of `HEX_ACCEPT_LOWER`, is the value of this constant, which nothing can evaluate. -/
opaque Config.invalidLineByte : Bool → List Byte → Nat → Byte

end Sys2Proof
end

