-- ==== Sys2Proof/Machine/Crc.lean ====
section
/-! DEFINITION. The arithmetic of the CRC32 engine (40_crc32). The source says only "standard Ethernet CRC32"; the
constants and the bit order are the spec's general knowledge (R140, 93 G1; PRESUMED, log 4). -/

namespace Sys2Proof.Machine

/-- The reflected generator polynomial (40_crc32 R140). PRESUMED, log 4. -/
def crcPoly : Word := 0xEDB88320#32

/-- Initial register value and final XOR (40_crc32 R140). PRESUMED, log 4. -/
def crcOnes : Word := 0xFFFFFFFF#32

/-- One shift of 40_crc32 R142: a logical right shift by one, and the polynomial if bit 0 was 1. -/
def crcShift (r : Word) : Word :=
  if r.getLsbD 0 then (r >>> 1) ^^^ crcPoly else r >>> 1

/-- `n` shifts. -/
def crcShifts : Nat → Word → Word
  | 0, r => r
  | n + 1, r => crcShifts n (crcShift r)

/-- `crc_step(r, b)` (40_crc32 R142). -/
def crcStep (r : Word) (b : Byte) : Word := crcShifts 8 (r ^^^ b.setWidth 32)

/-- `crc_feed(r, s)`, bytes in ascending index order (40_crc32 R142). -/
def crcFeed (r : Word) : List Byte → Word
  | [] => r
  | b :: bs => crcFeed (crcStep r b) bs

/-- `CRC32(buf, len)` (40_crc32 R144). -/
def crc32Of (buf : List Byte) : Word := crcFeed crcOnes buf ^^^ crcOnes

/-- `calculated_crc16 = low16(CRC32(buf[0..5]))` (40_crc32 R147, 30_encoding R105). It has a register of its own
(R366). -/
def initCheck (buf : Frame) : Half := low16 (crc32Of (buf.toList.take 6))

end Sys2Proof.Machine
end

