-- ==== Sys2Proof/Syntax.lean ====
section
/-! DEFINITION. The operations of the block (00_scope R18): one constructor of `Instr` for each of the 25 rows of
spec/opcode_table.json, with the operands the spec gives it, and the records their operands and results are made of. -/

namespace Sys2Proof

/-- The operands a record's text carries besides its type (30_encoding R110, 10_state R36): the byte count, the 16-bit
address, the data array `data:[u8;16]` and the line checksum. -/
structure HexRecord where
  byteCount : Byte
  address : Half
  data : Vector Byte 16
  checksum : Byte
  deriving DecidableEq, Repr

/-- `ParsedLine`, the result of `PARSE_LINE` (10_state R36): the record, its type, and the flag `valid` (R42). When
`valid` is false the other fields are meaningless and no rule reads them. -/
structure ParsedLine where
  valid : Bool
  recordType : Byte
  record : HexRecord
  deriving DecidableEq, Repr

/-- What `UNPACK_INIT` returns (41_frame_codec R162). -/
structure InitFields where
  lineCount : Half
  fileCrc32 : Word
  initCrc16 : Half
  calculatedCrc16 : Half
  deriving DecidableEq, Repr

/-- What `UNPACK_SEG` returns (41_frame_codec R166). -/
structure SegFields where
  lineNum : Half
  segmentIndex : Byte
  segmentTotal : Byte
  payload : Vector Byte 5
  deriving DecidableEq, Repr

/-- The kind of an input frame, bit 0 of its word (30_encoding R102, 41_frame_codec R161). -/
inductive FrameKind where
  | init
  | segment
  deriving DecidableEq, Repr

/-- `ResponseCode` (30_encoding R109). -/
inductive ResponseCode where
  | none
  | sendLine
  | transferComplete
  | error
  deriving DecidableEq, Repr

/-- The operations of the block, one for each row of spec/opcode_table.json (00_scope R18). Field widths are those of
the encodings (30_encoding R100, R101), so that every operand value has an encoding. -/
inductive Instr where
  /-- `INIT`: an Init frame (30_encoding R100). -/
  | init (lineCount : BitVec 15) (fileCrc32 : Word) (initCrc16 : Half)
  /-- `SEG`: a Segment frame (30_encoding R101). -/
  | seg (lineNum : BitVec 15) (segmentIndex segmentTotal : BitVec 4) (payload : Vector Byte 5)
  /-- `REC_DATA`: record type 00h. -/
  | recData (r : HexRecord)
  /-- `REC_EOF`: record type 01h. -/
  | recEof (r : HexRecord)
  /-- `REC_ESA`: record type 02h. -/
  | recEsa (r : HexRecord)
  /-- `REC_SSA`: record type 03h. -/
  | recSsa (r : HexRecord)
  /-- `REC_ELA`: record type 04h. -/
  | recEla (r : HexRecord)
  /-- `REC_SLA`: record type 05h. -/
  | recSla (r : HexRecord)
  /-- `RSP_NONE`: response code 0, no frame (46_response R302). -/
  | rspNone
  /-- `RSP_SEND_LINE`: response code 1 (46_response R303). -/
  | rspSendLine
  /-- `RSP_TRANSFER_COMPLETE`: response code 2 (46_response R304). -/
  | rspTransferComplete
  /-- `RSP_ERROR`: response code 3 (46_response R304). -/
  | rspError
  /-- `OP_RESET` (45_transfer_control R260). -/
  | opReset
  /-- `OP_ABORT` (45_transfer_control R261). -/
  | opAbort
  /-- `OP_FRAME(buf, now)` (45_transfer_control R262). -/
  | opFrame (buf : Frame) (now : Word)
  /-- `OP_TICK(now)` (45_transfer_control R270). -/
  | opTick (now : Word)
  /-- `Q_IN_PROGRESS` (45_transfer_control R290). -/
  | qInProgress
  /-- `Q_COMPLETE` (45_transfer_control R291). -/
  | qComplete
  /-- `CRC32(buf, len)`, `len` the length of the list (40_crc32 R144). -/
  | crc32 (buf : List Byte)
  /-- `CRC32_UPD(buf, len)` (40_crc32 R145). -/
  | crc32Upd (buf : List Byte)
  /-- `UNPACK_INIT(buf)` (41_frame_codec R162). -/
  | unpackInit (buf : Frame)
  /-- `PACK_INIT(line_count, file_crc32, init_crc16)`, `line_count` 0 to 0x7FFF (41_frame_codec R164). -/
  | packInit (lineCount : BitVec 15) (fileCrc32 : Word) (initCrc16 : Half)
  /-- `UNPACK_SEG(buf)` (41_frame_codec R166). -/
  | unpackSeg (buf : Frame)
  /-- `PACK_SEG(line_num, segment_index, segment_total, payload)` (41_frame_codec R168). -/
  | packSeg (lineNum : BitVec 15) (segmentIndex segmentTotal : BitVec 4) (payload : Vector Byte 5)
  /-- `PARSE_LINE(line_buf)`: its operand is the register `line_buf` (43_hex_line R200, R204). -/
  | parseLine
  deriving DecidableEq, Repr

/-- The six operations the host can issue (00_scope R18, 45_transfer_control R260 to R291). They have no encoding
(30_encoding R117). -/
inductive PortOp where
  | reset
  | abort
  | frame (buf : Frame) (now : Word)
  | tick (now : Word)
  | qInProgress
  | qComplete
  deriving DecidableEq, Repr

/-- The layer an encoding belongs to: the input frame and the record text are the two levels of 30_encoding R115, the
response frame is the output format of R108. -/
inductive Layer where
  | frame
  | record
  | response
  deriving DecidableEq, Repr

/-- The bytes of an encoded operation, in buffer order, with the layer they belong to. -/
structure Encoded where
  layer : Layer
  bytes : List Byte
  deriving DecidableEq, Repr

/-- Why the decoder rejects bytes. -/
inductive DecodeError where
  /-- A frame or a response has exactly eight bytes (30_encoding R103, R108). -/
  | notEightBytes
  /-- A line has at most 45 bytes (10_state R31). -/
  | lineTooLong
  /-- `PARSE_LINE` finds the line invalid (43_hex_line R204, 30_encoding R112). -/
  | lineParseError
  /-- Response codes 4 to 255 are never produced (30_encoding R109). -/
  | noResponseCode
  deriving DecidableEq, Repr

/-- The layer of an operation's encoding: none for the port operations and the internal primitives (30_encoding
R117). -/
def Instr.layer : Instr → Option Layer
  | .init _ _ _ => some .frame
  | .seg _ _ _ _ => some .frame
  | .recData _ => some .record
  | .recEof _ => some .record
  | .recEsa _ => some .record
  | .recSsa _ => some .record
  | .recEla _ => some .record
  | .recSla _ => some .record
  | .rspNone => some .response
  | .rspSendLine => some .response
  | .rspTransferComplete => some .response
  | .rspError => some .response
  | .opReset => none
  | .opAbort => none
  | .opFrame _ _ => none
  | .opTick _ => none
  | .qInProgress => none
  | .qComplete => none
  | .crc32 _ => none
  | .crc32Upd _ => none
  | .unpackInit _ => none
  | .packInit _ _ _ => none
  | .unpackSeg _ => none
  | .packSeg _ _ _ _ => none
  | .parseLine => none

/-- The operation a host's request stands for. -/
def PortOp.instr : PortOp → Instr
  | .reset => .opReset
  | .abort => .opAbort
  | .frame buf now => .opFrame buf now
  | .tick now => .opTick now
  | .qInProgress => .qInProgress
  | .qComplete => .qComplete

end Sys2Proof
end

