-- ==== Sys2Proof/WellFormed.lean ====
section
/-! DEFINITION. Which operands an encoding can carry. The frame formats use every bit (30_encoding R100, R101), so a
frame is well-formed by its type; a record must be the content of a valid line (30_encoding R110, 43_hex_line R204). -/

namespace Sys2Proof

/-- Check 3 of 43_hex_line R207: at most 16 data bytes. -/
def byteCountOk (r : HexRecord) : Bool := decide (r.byteCount ≤ 16#8)

/-- `data[k]` is 0x00 for `k >= byte_count` (43_hex_line R215). -/
def tailZero (r : HexRecord) : Bool := (r.data.toList.drop r.byteCount.toNat).all (· = 0x00#8)

/-- Check 6 of 43_hex_line R210: all decoded bytes sum to 0 modulo 256. -/
def checksumOk (recordType : Byte) (r : HexRecord) : Bool :=
  decide ((r.data.toList.take r.byteCount.toNat).foldl (· + ·)
    (r.byteCount + r.address.extractLsb' 8 8 + r.address.extractLsb' 0 8 + recordType + r.checksum) = 0#8)

/-- A record some valid line of this type carries. -/
def recordWellFormed (recordType : Byte) (r : HexRecord) : Bool :=
  byteCountOk r && tailZero r && checksumOk recordType r

/-- An operation whose operands its encoding can carry; operations with no encoding take every operand of their
type. -/
def wellFormed : Instr → Bool
  | .init _ _ _ => true
  | .seg _ _ _ _ => true
  | .recData r => recordWellFormed 0x00#8 r
  | .recEof r => recordWellFormed 0x01#8 r
  | .recEsa r => recordWellFormed 0x02#8 r
  | .recSsa r => recordWellFormed 0x03#8 r
  | .recEla r => recordWellFormed 0x04#8 r
  | .recSla r => recordWellFormed 0x05#8 r
  | .rspNone => true
  | .rspSendLine => true
  | .rspTransferComplete => true
  | .rspError => true
  | .opReset => true
  | .opAbort => true
  | .opFrame _ _ => true
  | .opTick _ => true
  | .qInProgress => true
  | .qComplete => true
  | .crc32 _ => true
  | .crc32Upd _ => true
  | .unpackInit _ => true
  | .packInit _ _ _ => true
  | .unpackSeg _ => true
  | .packSeg _ _ _ _ => true
  | .parseLine => true

end Sys2Proof
end

