-- ==== Sys2Proof/Decode.lean ====
section
/-! DEFINITION. The decoder, then the encoder (30_encoding, 41_frame_codec, 43_hex_line). Every bit field is cut out
here, once. Decoding has two levels (30_encoding R115): the frame word, and the text of a line; the output format
(R108) is decoded too, so that all three encodings of the opcode table can be read back. -/

namespace Sys2Proof

/-! ### The frame word -/

/-- `w = sum buf[i] << (8*i)` (30_encoding R103, 00_scope R11). -/
def frameWord (buf : Frame) : FrameWord :=
  buf[0].setWidth 64 ||| buf[1].setWidth 64 <<< 8 ||| buf[2].setWidth 64 <<< 16 ||| buf[3].setWidth 64 <<< 24 |||
    buf[4].setWidth 64 <<< 32 ||| buf[5].setWidth 64 <<< 40 ||| buf[6].setWidth 64 <<< 48 ||| buf[7].setWidth 64 <<< 56

/-- `buf[i] = w[8i+7 : 8i]` (41_frame_codec R164, R168). -/
def wordFrame (w : FrameWord) : Frame :=
  #v[w.extractLsb' 0 8, w.extractLsb' 8 8, w.extractLsb' 16 8, w.extractLsb' 24 8,
    w.extractLsb' 32 8, w.extractLsb' 40 8, w.extractLsb' 48 8, w.extractLsb' 56 8]

/-- `CLASSIFY(buf)`: bit 0 of the frame word (30_encoding R102, 41_frame_codec R161; 90 C1). -/
def classify (buf : Frame) : FrameKind :=
  if (frameWord buf).getLsbD 0 then .segment else .init

/-- The field `payload` of a Segment word: `payload[k] = w[31+8k : 24+8k]` (30_encoding R101). -/
def segPayload (w : FrameWord) : Vector Byte 5 :=
  #v[w.extractLsb' 24 8, w.extractLsb' 32 8, w.extractLsb' 40 8, w.extractLsb' 48 8, w.extractLsb' 56 8]

/-- `UNPACK_INIT(buf)` (41_frame_codec R162). -/
def unpackInitFrame (buf : Frame) : InitFields :=
  let w := frameWord buf
  { lineCount := (w.extractLsb' 1 15).setWidth 16
    fileCrc32 := w.extractLsb' 16 32
    initCrc16 := w.extractLsb' 48 16
    calculatedCrc16 := Machine.initCheck buf }

/-- `PACK_INIT(line_count, file_crc32, init_crc16)` (41_frame_codec R164). -/
def packInitFrame (lineCount : BitVec 15) (fileCrc32 : Word) (initCrc16 : Half) : Frame :=
  wordFrame (lineCount.setWidth 64 <<< 1 ||| fileCrc32.setWidth 64 <<< 16 ||| initCrc16.setWidth 64 <<< 48)

/-- `UNPACK_SEG(buf)` (41_frame_codec R166). -/
def unpackSegFrame (buf : Frame) : SegFields :=
  let w := frameWord buf
  { lineNum := (w.extractLsb' 1 15).setWidth 16
    segmentIndex := (w.extractLsb' 16 4).setWidth 8
    segmentTotal := (w.extractLsb' 20 4).setWidth 8
    payload := segPayload w }

/-- `PACK_SEG(line_num, segment_index, segment_total, payload)` (41_frame_codec R168). -/
def packSegFrame (lineNum : BitVec 15) (segmentIndex segmentTotal : BitVec 4) (payload : Vector Byte 5) : Frame :=
  wordFrame (1#64 ||| lineNum.setWidth 64 <<< 1 ||| segmentIndex.setWidth 64 <<< 16 ||| segmentTotal.setWidth 64 <<< 20 |||
    payload[0].setWidth 64 <<< 24 ||| payload[1].setWidth 64 <<< 32 ||| payload[2].setWidth 64 <<< 40 |||
    payload[3].setWidth 64 <<< 48 ||| payload[4].setWidth 64 <<< 56)

/-- Level 1 of 30_encoding R115: every frame is an `INIT` or a `SEG` (R107). -/
def decodeFrame (buf : Frame) : Instr :=
  let w := frameWord buf
  match classify buf with
  | .init => .init (w.extractLsb' 1 15) (w.extractLsb' 16 32) (w.extractLsb' 48 16)
  | .segment => .seg (w.extractLsb' 1 15) (w.extractLsb' 16 4) (w.extractLsb' 20 4) (segPayload w)

/-! ### Hex text and lines -/

/-- The value of a hex digit; lower case counts when `HEX_ACCEPT_LOWER` is true (30_encoding R111). -/
def nibble (lower : Bool) (c : Byte) : Option Byte :=
  if 0x30#8 ≤ c ∧ c ≤ 0x39#8 then some (c - 0x30#8)
  else if 0x41#8 ≤ c ∧ c ≤ 0x46#8 then some (c - 0x37#8)
  else if lower = true ∧ 0x61#8 ≤ c ∧ c ≤ 0x66#8 then some (c - 0x57#8)
  else none

/-- `parse_hex2(c1, c0)`, the first character the high nibble (30_encoding R111). -/
def parseHex2 (lower : Bool) (c1 c0 : Byte) : Option Byte :=
  match nibble lower c1, nibble lower c0 with
  | some h, some l => some (16#8 * h + l)
  | _, _ => none

/-- The effective length of a line: the index of its first pad byte, or 45 (20_memory R73). -/
def effectiveLength (l : Line) : Nat := l.toList.findIdx (· = padByte)

/-- The characters of a line, without the pad (20_memory R72, R73). -/
def lineText (l : Line) : List Byte := l.toList.take (effectiveLength l)

/-- Byte `p` of the LINE space. No rule reads at or past 45 (43_hex_line R212). -/
def lineByte (l : Line) (p : Nat) : Byte := l.toList.getD p padByte

/-- A line buffer that holds `text` from address 0 and pad bytes after it (10_state R31). -/
def lineOf (text : List Byte) : Line :=
  ⟨⟨(text ++ List.replicate 45 padByte).take 45⟩, by simp⟩

/-- `hex2(p)` of 43_hex_line R204. -/
def hex2 (lower : Bool) (l : Line) (p : Nat) : Option Byte :=
  parseHex2 lower (lineByte l p) (lineByte l (p + 1))

/-- The data bytes at positions `p`, `p + 2`, ..., `n` of them; none if one is not hex (43_hex_line R204, R211). -/
def hexData (lower : Bool) (l : Line) (p : Nat) : Nat → Option (List Byte)
  | 0 => some []
  | n + 1 =>
    match hex2 lower l p with
    | none => none
    | some d =>
      match hexData lower l (p + 2) n with
      | none => none
      | some ds => some (d :: ds)

/-- The data bytes at positions `p`, `p + 2`, ..., at most `n` of them, up to the first that is not hex: what the loop of
43_hex_line R204 has decoded when it ends or returns. -/
def hexPrefix (lower : Bool) (l : Line) (p : Nat) : Nat → List Byte
  | 0 => []
  | n + 1 =>
    match hex2 lower l p with
    | none => []
    | some d => d :: hexPrefix lower l (p + 2) n

/-- Sum of bytes modulo 256 (43_hex_line R210). -/
def byteSum : List Byte → Byte
  | [] => 0#8
  | b :: bs => b + byteSum bs

/-- The array `data:[u8;16]` whose first bytes are `ds` and whose other bytes are 0x00 (43_hex_line R215, log 14). -/
def dataArray (ds : List Byte) : Vector Byte 16 :=
  ⟨⟨(ds ++ List.replicate 16 0x00#8).take 16⟩, by simp⟩

/-- The result with `valid = 0` after the data bytes `ds` were decoded (43_hex_line R204): `data` was cleared first, and
holds them. The other fields are assigned to a valid result only and are meaningless here (10_state R36), so they hold
FREE VALUES, which nothing constrains; that they are a function of the line's text is the model's form of them (DESIGN
CHOICE, log 33). -/
def invalidLine (lower : Bool) (l : Line) (ds : List Byte) : ParsedLine :=
  let free := Config.invalidLineByte lower (lineText l)
  { valid := false
    recordType := free 0
    record := ⟨free 1, free 2 ++ free 3, dataArray ds, free 4⟩ }

/-- `PARSE_LINE(line_buf)`, check by check as in 43_hex_line R204. -/
def parseLineBuf (lower : Bool) (l : Line) : ParsedLine :=
  let length := effectiveLength l
  if length < 11 then invalidLine lower l []
  else if lineByte l 0 ≠ 0x3A#8 then invalidLine lower l []
  else
    match hex2 lower l 1 with
    | none => invalidLine lower l []
    | some bc =>
      if 16#8 < bc then invalidLine lower l []
      else if length ≠ 11 + 2 * bc.toNat then invalidLine lower l []
      else
        match hex2 lower l 3, hex2 lower l 5, hex2 lower l 7 with
        | some ah, some al, some rt =>
          if 5#8 < rt then invalidLine lower l []
          else
            match hexData lower l 9 bc.toNat, hex2 lower l (9 + 2 * bc.toNat) with
            | some ds, some ck =>
              if bc + ah + al + rt + byteSum ds + ck ≠ 0#8 then invalidLine lower l ds
              else
                { valid := true
                  recordType := rt
                  record := ⟨bc, ah ++ al, dataArray ds, ck⟩ }
            | _, _ => invalidLine lower l (hexPrefix lower l 9 bc.toNat)
        | _, _, _ => invalidLine lower l []

/-- The inner opcode map (30_encoding R112). -/
def recordInstr (recordType : Byte) (r : HexRecord) : Option Instr :=
  match recordType.toNat with
  | 0 => some (.recData r)
  | 1 => some (.recEof r)
  | 2 => some (.recEsa r)
  | 3 => some (.recSsa r)
  | 4 => some (.recEla r)
  | 5 => some (.recSla r)
  | _ => none

/-! ### Responses -/

/-- The number of a response code (30_encoding R109). -/
def responseByte : ResponseCode → Byte
  | .none => 0x00#8
  | .sendLine => 0x01#8
  | .transferComplete => 0x02#8
  | .error => 0x03#8

/-- `ENCODE(code, snapshot)`: the code, six pad bytes, and the placeholder of the send-time CRC (30_encoding R108,
46_response R301). -/
def encodeResponse (pad : Byte) (code : ResponseCode) : Frame :=
  #v[responseByte code, pad, pad, pad, pad, pad, pad, 0x00#8]

/-- The operation that emits a code. -/
def responseInstr : ResponseCode → Instr
  | .none => .rspNone
  | .sendLine => .rspSendLine
  | .transferComplete => .rspTransferComplete
  | .error => .rspError

/-- The code in byte 0 of a response; 4 to 255 are never produced (30_encoding R109). -/
def responseCode (b : Byte) : Option ResponseCode :=
  match b.toNat with
  | 0 => some .none
  | 1 => some .sendLine
  | 2 => some .transferComplete
  | 3 => some .error
  | _ => none

/-! ### The decoder -/

/-- Eight bytes as a frame (30_encoding R103). -/
def frameOfBytes : List Byte → Option Frame
  | [b0, b1, b2, b3, b4, b5, b6, b7] => some #v[b0, b1, b2, b3, b4, b5, b6, b7]
  | _ => none

/-- Level 2 of 30_encoding R115: the record a line's text carries. -/
def decodeRecord (lower : Bool) (text : List Byte) : Except DecodeError Instr :=
  if 45 < text.length then .error .lineTooLong
  else
    let pl := parseLineBuf lower (lineOf text)
    if pl.valid then
      match recordInstr pl.recordType pl.record with
      | some i => .ok i
      | none => .error .lineParseError
    else .error .lineParseError

/-- The code a response frame carries, read at byte 0 (30_encoding R108, R109). -/
def decodeResponse (out : Frame) : Except DecodeError Instr :=
  match responseCode out[0] with
  | some c => .ok (responseInstr c)
  | none => .error .noResponseCode

/-- The decoder, total on any bytes of any layer. -/
def decode (cfg : Config) (e : Encoded) : Except DecodeError Instr :=
  match e.layer with
  | .frame =>
    match frameOfBytes e.bytes with
    | some buf => .ok (decodeFrame buf)
    | none => .error .notEightBytes
  | .record => decodeRecord cfg.hexAcceptLower e.bytes
  | .response =>
    match frameOfBytes e.bytes with
    | some out => decodeResponse out
    | none => .error .notEightBytes

/-! ### The encoder -/

/-- The upper-case hex digit of a value below 16 (00_scope R12). -/
def hexDigit (n : Byte) : Byte := if n < 10#8 then n + 0x30#8 else n + 0x37#8

/-- Two characters a byte, the high nibble first (30_encoding R110, R111). -/
def hexText : List Byte → List Byte
  | [] => []
  | b :: bs => hexDigit (b >>> 4) :: hexDigit (b &&& 0x0F#8) :: hexText bs

/-- The decoded bytes of a record's line in text order (30_encoding R110). -/
def recordBytes (recordType : Byte) (r : HexRecord) : List Byte :=
  r.byteCount :: r.address.extractLsb' 8 8 :: r.address.extractLsb' 0 8 :: recordType ::
    (r.data.toList.take r.byteCount.toNat ++ [r.checksum])

/-- The text `:BBAAAARR[DD..]CC` of a record (30_encoding R110). -/
def recordText (recordType : Byte) (r : HexRecord) : List Byte :=
  0x3A#8 :: hexText (recordBytes recordType r)

/-- The encoding of an operation, where it has one (30_encoding R100, R101, R108, R110, R117). -/
def encode (cfg : Config) : Instr → Option Encoded
  | .init lc fc ic => some ⟨.frame, (packInitFrame lc fc ic).toList⟩
  | .seg ln si st p => some ⟨.frame, (packSegFrame ln si st p).toList⟩
  | .recData r => some ⟨.record, recordText 0x00#8 r⟩
  | .recEof r => some ⟨.record, recordText 0x01#8 r⟩
  | .recEsa r => some ⟨.record, recordText 0x02#8 r⟩
  | .recSsa r => some ⟨.record, recordText 0x03#8 r⟩
  | .recEla r => some ⟨.record, recordText 0x04#8 r⟩
  | .recSla r => some ⟨.record, recordText 0x05#8 r⟩
  | .rspNone => some ⟨.response, (encodeResponse cfg.respPad .none).toList⟩
  | .rspSendLine => some ⟨.response, (encodeResponse cfg.respPad .sendLine).toList⟩
  | .rspTransferComplete => some ⟨.response, (encodeResponse cfg.respPad .transferComplete).toList⟩
  | .rspError => some ⟨.response, (encodeResponse cfg.respPad .error).toList⟩
  | .opReset => none
  | .opAbort => none
  | .opFrame _ _ => none
  | .opTick _ => none
  | .qInProgress => none
  | .qComplete => none
  | .crc32 _ => none
  | .crc32Upd _ => none
  | .unpackInit _ => none
  | .packInit _ _ _ => none
  | .unpackSeg _ => none
  | .packSeg _ _ _ _ => none
  | .parseLine => none

/-! ### The words of the opcode table -/

/-- The shortest record of a type: no data, address 0, and the checksum that makes it valid (43_hex_line R210). -/
def bareRecord (recordType : Byte) : HexRecord := ⟨0#8, 0#16, dataArray [], 0#8 - recordType⟩

/-- What a word of the opcode table stands for (log 2). The match of a record row applies to `record_type`, one byte: a
one-byte word 00h to 05h is that record with its other operands 0. Every other word of at most 64 bits is a frame,
least significant byte first, its upper bits 0 (30_encoding R103). -/
def tableWord (nbits w : Nat) : Option Encoded :=
  if nbits = 8 ∧ w ≤ 5 then
    some ⟨.record, recordText (BitVec.ofNat 8 w) (bareRecord (BitVec.ofNat 8 w))⟩
  else if nbits ≤ 64 ∧ w < 2 ^ 64 then some ⟨.frame, (wordFrame (BitVec.ofNat 64 w)).toList⟩
  else none

/-- The instruction the decoder reads from a word of the opcode table (log 2). -/
def decodeTableWord (nbits w : Nat) : Option Instr :=
  match tableWord nbits w with
  | none => none
  | some e =>
    match decode Config.platform e with
    | .ok i => some i
    | .error _ => none

end Sys2Proof
end

