-- ==== Sys2Proof/Machine/State.lean ====
section
/-! DEFINITION. The state of the machine as plain data: the transfer context (10_state R21), the staging memory
(20_memory R74), the parameters (10_state R37), the host's requests still to come, and what the last operation handed
back. Then the reasons a step can stop, and the state after reset. -/

namespace Sys2Proof.Machine

/-- The content of the STAGE space (20_memory R70, R74), in canonical form: addresses strictly rising, below 2^32. A
byte not listed is one the block never wrote: it has no value (log 13). -/
abbrev Memory := List Host.Cell

/-- The value -1 of `segment_total : i8` (10_state R29): the count is not yet known. -/
def noTotal : BitVec 8 := 0xFF#8

/-- The 45 pad bytes of an empty line buffer (10_state R31, R60, R61). -/
def padLine : Line := Vector.replicate 45 padByte

/-- The transfer context, register by register (10_state R21). -/
structure Context where
  /-- R22: upper address bits from records 02h and 04h. -/
  baseAddress : Word
  /-- R23: least absolute address seen. -/
  minAddress : Word
  /-- R23: greatest end address seen. -/
  maxAddress : Word
  /-- R24: an EOF record was accepted. -/
  eofReceived : Bool
  /-- R25: number of lines announced by Init. -/
  expectedLines : Half
  /-- R26: file CRC announced by Init. -/
  expectedFileCrc32 : Word
  /-- R27: the raw register of the CRC engine; `computed_file_crc32` is its complement. -/
  fileCrcReg : Word
  /-- R28, R40: index of the line the block waits for. -/
  currentLineIndex : Half
  /-- R29: segments of the current line as an `i8`, -1 when not known. -/
  segmentTotal : BitVec 8
  /-- R30: bit `i` is 1 iff segment `i` has been accepted. -/
  segmentsReceived : BitVec 9
  /-- R31: the line buffer. -/
  lineBuf : Line
  /-- R32: a transfer is under way. -/
  inProgress : Bool
  /-- R33: the last transfer completed. -/
  complete : Bool
  /-- R34: time of the last validated frame. -/
  lastFrameMs : Word
  /-- R35: an Init frame waits to be reported. -/
  newInitPending : Bool
  /-- R35: that Init frame failed its check. -/
  initError : Bool
  deriving DecidableEq, Repr

/-- The reset column of 10_state R21, as R60 spells it out. The source gives -1 and the pad bytes; the other values
are the spec's decision D24 (log 3). -/
def Context.reset : Context where
  baseAddress := 0#32
  minAddress := 0xFFFFFFFF#32
  maxAddress := 0#32
  eofReceived := false
  expectedLines := 0#16
  expectedFileCrc32 := 0#32
  fileCrcReg := 0xFFFFFFFF#32
  currentLineIndex := 0#16
  segmentTotal := noTotal
  segmentsReceived := 0#9
  lineBuf := padLine
  inProgress := false
  complete := false
  lastFrameMs := 0#32
  newInitPending := false
  initError := false

/-- The states of 10_state R41. AwaitingInit and Aborted are Idle (90 C7). -/
inductive TransferState where
  | idle
  | receiving
  | completing
  | complete
  deriving DecidableEq, Repr

/-- The nine error kinds, in the order of 60_exceptions R310. Their numbers are in no register and no frame. -/
inductive ErrorKind where
  | initChecksumError
  | lineParseError
  | lineProcessingError
  | segmentMismatch
  | segmentTimeout
  | inactivityTimeout
  | fileChecksumError
  | flashWriteError
  | addressOutOfRange
  deriving DecidableEq, Repr

/-- A call of `flash_write_block(addr, data, len)`, `len` the length of the list (20_memory R80). -/
structure FlashCall where
  addr : Word
  data : List Byte
  deriving DecidableEq, Repr

/-- What an operation returns (00_scope R18, the `returns` of spec/opcode_table.json). -/
inductive Ret where
  /-- Nothing. -/
  | none
  /-- The status queries, and the result of a record handler (44_record_dispatch R231). -/
  | bool (b : Bool)
  /-- The response port: the code and `resp_line` (46_response R300). -/
  | response (code : ResponseCode) (respLine : Half)
  /-- `CRC32`, `CRC32_UPD`. -/
  | word (v : Word)
  /-- `UNPACK_INIT`. -/
  | initFields (f : InitFields)
  /-- `UNPACK_SEG`. -/
  | segFields (f : SegFields)
  /-- `PACK_INIT`, `PACK_SEG`. -/
  | frame (buf : Frame)
  /-- `PARSE_LINE`. -/
  | parsed (pl : ParsedLine)
  deriving DecidableEq, Repr

/-- What the last operation handed to the outside: the model's own record (log 17). Every operation begins by
clearing it. -/
structure Outputs where
  /-- The return value. -/
  ret : Ret
  /-- The error kinds raised (00_scope R16), in order. -/
  raised : List ErrorKind
  /-- The frame handed to `can_send` (46_response R300, 60_exceptions R334). -/
  sent : Option Frame
  /-- The call made of the flash primitive (20_memory R80, R84: at most one). -/
  flashCall : Option FlashCall
  deriving DecidableEq, Repr

/-- Nothing handed out. -/
def Outputs.empty : Outputs where
  ret := .none
  raised := []
  sent := none
  flashCall := none

/-- One request of the host: a port operation, and the code the flash primitive will return if the operation calls
it (20_memory R80, 93 U5; log 10). -/
structure Request where
  op : PortOp
  flashReply : Nat
  deriving DecidableEq, Repr

/-- The state of the machine. -/
structure State where
  /-- The transfer context (10_state R21). -/
  ctx : Context
  /-- The STAGE space (20_memory R74). -/
  stage : Memory
  /-- The parameters (10_state R37). -/
  cfg : Config
  /-- The host's requests still to come, oldest first (log 1). -/
  port : List Request
  /-- The clock value last sampled (60_exceptions R331; log 15). -/
  now : Word
  /-- What the flash primitive returns if called now (log 10). -/
  flashReply : Nat
  /-- How many free values have been drawn (log 11). -/
  freeCount : Nat
  /-- What the last operation handed back (log 17). -/
  out : Outputs
  deriving DecidableEq, Repr

/-- Why the machine stops with a fault. -/
inductive Fault where
  /-- A write to the LINE space outside addresses 0 to 44 (20_memory R70, R71). Raised by `SEG` and `OP_FRAME`, only in
  a state whose `segment_total` is outside its legal values (10_state R50), which no run reaches. Safe: the machine
  stops where the spec says nothing exists (log 28). -/
  | lineAddress
  deriving DecidableEq, Repr

/-- Why an operation has no meaning. -/
inductive Refusal where
  /-- Raised by no arm: every operation of the table has its meaning. Safe: a refusal claims nothing. -/
  | notModelled (mnemonic : String)
  deriving DecidableEq, Repr

/-- The machine right after reset (10_state R60, 70_reset_and_hazards R350): Idle. Nothing is staged, no request waits,
and the OPEN parameters are constants without a value (log 1, 3, 8, 13, 15). -/
def State.reset : State where
  ctx := Context.reset
  stage := []
  cfg := Config.platform
  port := []
  now := 0#32
  flashReply := 0
  freeCount := 0
  out := Outputs.empty

end Sys2Proof.Machine
end

