-- ==== Sys2Proof/Machine/Operands.lean ====
section
/-! DEFINITION. The operand forms: the fields of a frame as its processor takes them, the addresses a data record
computes, the two data bytes of an address record, the slot of a segment. -/

namespace Sys2Proof.Machine

/-- The operands of `INIT` (30_encoding R105): the frame's fields, and the check computed over its first six bytes. -/
def initOperands (lineCount : BitVec 15) (fileCrc32 : Word) (initCrc16 : Half) : InitFields where
  lineCount := lineCount.setWidth 16
  fileCrc32 := fileCrc32
  initCrc16 := initCrc16
  calculatedCrc16 := initCheck (packInitFrame lineCount fileCrc32 initCrc16)

/-- The operands of `SEG`, zero-extended (30_encoding R106). -/
def segOperands (lineNum : BitVec 15) (segmentIndex segmentTotal : BitVec 4) (payload : Vector Byte 5) : SegFields where
  lineNum := lineNum.setWidth 16
  segmentIndex := segmentIndex.setWidth 8
  segmentTotal := segmentTotal.setWidth 8
  payload := payload

/-- Address of the slot of segment `i` in the LINE space (20_memory R71). -/
def slotAddress (i : Byte) : Nat := 5 * i.toNat

/-- `pl.data[0 .. byte_count-1]` (20_memory R80). -/
def dataBytes (r : HexRecord) : List Byte := r.data.toList.take r.byteCount.toNat

/-- `A = (base_address + zext_32(pl.address)) mod 2^32` (20_memory R78). -/
def imageAddress (c : Context) (r : HexRecord) : Word := c.baseAddress + r.address.setWidth 32

/-- `E = A + byte_count`, unbounded (44_record_dispatch R232, R234; D19). -/
def endAddress (c : Context) (r : HexRecord) : Nat := (imageAddress c r).toNat + r.byteCount.toNat

/-- `FLASH_BUFFER_BASE + FLASH_BUFFER_SIZE`, unbounded (20_memory R77; D19). -/
def windowEnd (cfg : Config) : Nat := cfg.flashBufferBase.toNat + cfg.flashBufferSize.toNat

/-- `W = (FLASH_BUFFER_BASE + A - FLASH_BASE_ADDR) mod 2^32` (20_memory R75). -/
def stageAddress (cfg : Config) (a : Word) : Word := cfg.flashBufferBase + a - cfg.flashBaseAddr

/-- `IN_FLASH(addr)` (20_memory R81; log 9). -/
def inFlash (cfg : Config) (addr : Word) : Bool :=
  cfg.flashRegions.any fun region => region.1 ≤ addr.toNat && addr.toNat < region.2

/-- `zext_32((data[0] << 8) | data[1])` (30_encoding R114, 20_memory R88). -/
def dataWord (r : HexRecord) : Word := r.data[0].setWidth 32 <<< 8 ||| r.data[1].setWidth 32

/-- The base address of `REC_ESA`: the data word shifted left by 4 (44_record_dispatch R242). Irreducible, so that a
comparison of states does not unfold the shift; `unfold` opens it. -/
@[irreducible] def segmentBase (r : HexRecord) : Word := dataWord r <<< 4

/-- The base address of `REC_ELA`: the data word shifted left by 16 (44_record_dispatch R246). -/
@[irreducible] def linearBase (r : HexRecord) : Word := dataWord r <<< 16

end Sys2Proof.Machine
end

