-- ==== Sys2Proof/Machine/Flags.lean ====
section
/-! DEFINITION. The conditions the block computes from its registers. It has no condition codes (10_state R42): these
are the predicates its rules test. -/

namespace Sys2Proof.Machine

/-- `elapsed = (now - last_frame_ms) mod 2^32` (60_exceptions R332). -/
def elapsed (now : Word) (c : Context) : Word := now - c.lastFrameMs

/-- `ready()`: the total is known and every segment below it has been received (42_segment_reassembly R190). -/
def ready (c : Context) : Bool :=
  c.segmentTotal ≠ noTotal && (List.range c.segmentTotal.toInt.toNat).all fun i => c.segmentsReceived.getLsbD i

/-- `has_transfer_timed_out()` (45_transfer_control R272): strictly more than `T_TRANSFER_MS`. -/
def transferTimedOut (cfg : Config) (now : Word) (c : Context) : Bool := cfg.tTransferMs < elapsed now c

/-- `has_segment_timed_out()` (45_transfer_control R273): not ready, and strictly more than `T_SEGMENT_MS`. -/
def segmentTimedOut (cfg : Config) (now : Word) (c : Context) : Bool :=
  !ready c && decide (cfg.tSegmentMs < elapsed now c)

/-- The Init frame is valid iff `init_crc16 = calculated_crc16` (45_transfer_control R263). -/
def initValid (m : InitFields) : Bool := m.initCrc16 = m.calculatedCrc16

/-- The view `computed_file_crc32 = file_crc_reg XOR 0xFFFFFFFF` (10_state R27). -/
def computedFileCrc32 (c : Context) : Word := c.fileCrcReg ^^^ crcOnes

/-- The test of the file-CRC gate (45_transfer_control R280). -/
def fileCrcMatches (c : Context) : Bool := computedFileCrc32 c = c.expectedFileCrc32

/-- `current_line_index + 1 = expected_lines`, unbounded (44_record_dispatch R240; D30). -/
def atLastLine (c : Context) : Bool := c.currentLineIndex.toNat + 1 = c.expectedLines.toNat

/-- The transfer state as a function of the flags (10_state R41); none for the combinations no run reaches. -/
def transferState (c : Context) : Option TransferState :=
  match c.inProgress, c.eofReceived, c.complete with
  | false, false, false => some .idle
  | true, false, false => some .receiving
  | true, true, false => some .completing
  | false, true, true => some .complete
  | _, _, _ => none

end Sys2Proof.Machine
end

