-- ==== Sys2Proof/Machine/Ops.lean ====
section
/-! DEFINITION. The named operations over memory, registers and outputs that the meanings are made of. Raising an
error kind is one of them (`State.raise`), and so are the abort of a terminal error and the response port. -/

namespace Sys2Proof.Machine

/-! ### The staging memory (20_memory) -/

/-- The byte at an address; none where the block never wrote (log 13). -/
def Memory.read : Memory → Nat → Option Byte
  | [], _ => none
  | (b, v) :: m, a => if a = b then some v else Memory.read m a

/-- Writes one byte, keeping the canonical form. -/
def Memory.write : Memory → Nat → Byte → Memory
  | [], a, v => [(a, v)]
  | (b, w) :: m, a, v =>
    if a < b then (a, v) :: (b, w) :: m
    else if a = b then (a, v) :: m
    else (b, w) :: Memory.write m a v

/-- Bytes to consecutive addresses, ascending, modulo 2^32 (20_memory R82; log 12). -/
def Memory.writeBytes (m : Memory) (addr : Word) : List Byte → Memory
  | [] => m
  | b :: bs => Memory.writeBytes (Memory.write m addr.toNat b) (addr + 1#32) bs

/-- Addresses strictly rising from `lo` on, and below 2^32. -/
def Memory.wfFrom (lo : Nat) : Memory → Bool
  | [] => true
  | (a, _) :: m => lo ≤ a && a < 2 ^ 32 && Memory.wfFrom (a + 1) m

/-- The canonical form. No listed byte equals what an unlisted one reads as, since that is no value. -/
def Memory.wf (m : Memory) : Bool := Memory.wfFrom 0 m

/-! ### The line buffer (20_memory R71, R72) -/

/-- Stores bytes at ascending addresses of a line. -/
def lineStore (addr : Nat) (bytes : List Byte) (l : Line) : Line :=
  match bytes with
  | [] => l
  | b :: bs => lineStore (addr + 1) bs (l.setIfInBounds addr b)

/-- `MemWrite(LINE, addr, n, bytes)` (00_scope R15); none if an address is outside the LINE space (20_memory R70). -/
def State.lineWrite (addr : Nat) (bytes : List Byte) (s : State) : Option State :=
  if addr + bytes.length ≤ 45 then some { s with ctx.lineBuf := lineStore addr bytes s.ctx.lineBuf } else none

/-- `LINE_RESET` (10_state R61). -/
def State.lineReset (s : State) : State :=
  { s with ctx.segmentTotal := noTotal, ctx.segmentsReceived := 0#9, ctx.lineBuf := padLine }

/-! ### Outputs and errors -/

/-- An operation begins with nothing handed out (log 17). -/
def State.clearOutputs (s : State) : State := { s with out := Outputs.empty }

/-- The return value of the operation. -/
def State.setRet (v : Ret) (s : State) : State := { s with out.ret := v }

/-- `raise <ErrorKind>` (00_scope R16): names the kind among the results. It saves nothing in a register and transfers
control nowhere (60_exceptions R312, R324); what else the error does is stated where it is raised. -/
def State.raise (k : ErrorKind) (s : State) : State := { s with out.raised := s.out.raised ++ [k] }

/-- The registers' reset (10_state R60), the effect of `OP_RESET` and `OP_ABORT` (45_transfer_control R260, R261). STAGE,
the parameters and the clock are not touched (70_reset_and_hazards R353). -/
def State.resetRegisters (s : State) : State := { s with ctx := Context.reset }

/-- `emit C` (46_response R300, R301): the pair `(code, resp_line)`, `resp_line` sampled now, and the encoded frame to
`can_send`; `NONE` sends no frame (R302). -/
def State.emit (code : ResponseCode) (s : State) : State :=
  { s with
    out.ret := .response code s.ctx.currentLineIndex
    out.sent := if code = .none then none else some (encodeResponse s.cfg.respPad code) }

/-- The end of the two terminal errors: everything is reset and `ERROR` is emitted (60_exceptions R313, R318, R319). -/
def State.terminalError (k : ErrorKind) (s : State) : State := ((s.raise k).resetRegisters).emit .error

/-! ### The CRC engine -/

/-- `CRC32_UPD` on `file_crc_reg` (40_crc32 R145, R148). -/
def State.feedFileCrc (bytes : List Byte) (s : State) : State :=
  { s with ctx.fileCrcReg := crcFeed s.ctx.fileCrcReg bytes }

/-! ### The flash-write port and the RAM path -/

/-- `n` free values, from the `k`-th on (20_memory R80, 93 U9; log 11). -/
def failedFlashBytes (k n : Nat) : List Byte := (List.range n).map fun i => Config.failedFlashByte (k + i)

/-- `flash_write_block(addr, data, len)` (20_memory R80): on return code 0 the bytes are stored; on another code the
bytes at those addresses are unspecified. -/
def State.flashWriteBlock (addr : Word) (data : List Byte) (s : State) : State :=
  if s.flashReply = 0 then
    { s with out.flashCall := some ⟨addr, data⟩, stage := Memory.writeBytes s.stage addr data }
  else
    { s with
      out.flashCall := some ⟨addr, data⟩
      stage := Memory.writeBytes s.stage addr (failedFlashBytes s.freeCount data.length)
      freeCount := s.freeCount + data.length }

/-- The plain byte copy of the RAM path (20_memory R82). -/
def State.ramCopy (addr : Word) (data : List Byte) (s : State) : State :=
  { s with stage := Memory.writeBytes s.stage addr data }

/-- `min(a, b)` on unsigned values (00_scope R13). -/
def minWord (a b : Word) : Word := if a ≤ b then a else b

/-- `max(a, b)` on unsigned values (00_scope R13). -/
def maxWord (a b : Word) : Word := if a ≤ b then b else a

/-- The bounds update (44_record_dispatch R233): `max_address` takes the end address modulo 2^32. -/
def State.updateBounds (a : Word) (e : Nat) (s : State) : State :=
  { s with
    ctx.minAddress := minWord s.ctx.minAddress a
    ctx.maxAddress := maxWord s.ctx.maxAddress (BitVec.ofNat 32 e) }

end Sys2Proof.Machine
end

