-- ==== Sys2Proof/Machine/Frames.lean ====
section
/-! DEFINITION. The two input frames: `INIT` (45_transfer_control R263 to R266) and `SEG` (42_segment_reassembly). -/

namespace Sys2Proof.Machine

/-! ### Init frames -/

/-- A valid Init frame (45_transfer_control R264): an abort, then the new transfer's registers. -/
def initAccept (m : InitFields) (s : State) : State :=
  let s := s.resetRegisters
  { s with
    ctx.inProgress := true
    ctx.expectedLines := m.lineCount
    ctx.expectedFileCrc32 := m.fileCrc32
    ctx.newInitPending := true
    ctx.initError := false
    ctx.lastFrameMs := s.now }

/-- A bad Init frame (45_transfer_control R265): the two one-shot flags, nothing else. -/
def initReject (s : State) : State :=
  { s.raise .initChecksumError with ctx.initError := true, ctx.newInitPending := true }

/-- `process_init` (45_transfer_control R263). -/
def processInit (m : InitFields) (s : State) : State :=
  if initValid m then initAccept m s else initReject s

/-! ### Segment frames -/

/-- A Segment frame that fails an acceptance rule is dropped silently (42_segment_reassembly R187, 60_exceptions
R316). -/
def dropSegment (s : State) : Host.Outcome State Fault Refusal := .next (s.raise .segmentMismatch)

/-- Acceptance rule 2 (42_segment_reassembly R183): adopt the total, or require that it agrees. None if the frame fails
the rule. -/
def adoptTotal (m : SegFields) (s : State) : Option State :=
  if s.ctx.segmentTotal = noTotal then
    if m.segmentTotal < 1#8 ∨ 9#8 < m.segmentTotal then none
    else some { s with ctx.segmentTotal := m.segmentTotal, ctx.segmentsReceived := 0#9 }
  else if m.segmentTotal ≠ s.ctx.segmentTotal then none
  else some s

/-- Step 4 (42_segment_reassembly R185, R186): store the payload, mark the segment, note the time. -/
def storeSegment (m : SegFields) (s : State) : Host.Outcome State Fault Refusal :=
  match s.lineWrite (slotAddress m.segmentIndex) m.payload.toList with
  | none => .fault .lineAddress
  | some s =>
    .next { s with
      ctx.segmentsReceived := s.ctx.segmentsReceived ||| 1#9 <<< m.segmentIndex.toNat
      ctx.lastFrameMs := s.now }

/-- `SEG(m, now)`, step by step (42_segment_reassembly R180). -/
def processSegment (m : SegFields) (s : State) : Host.Outcome State Fault Refusal :=
  if s.ctx.inProgress = false then .next s
  else if m.lineNum ≠ s.ctx.currentLineIndex then dropSegment s
  else
    match adoptTotal m s with
    | none => dropSegment s
    | some s' => if s'.ctx.segmentTotal ≤ m.segmentIndex then dropSegment s' else storeSegment m s'

/-! ### The meanings -/

/-- `INIT` (45_transfer_control R263, R264, R265), at the clock value last sampled (log 16). -/
def execInit (lineCount : BitVec 15) (fileCrc32 : Word) (initCrc16 : Half) (s : State) :
    Host.Outcome State Fault Refusal :=
  .next (processInit (initOperands lineCount fileCrc32 initCrc16) s.clearOutputs)

/-- `SEG` (42_segment_reassembly R180), at the clock value last sampled (log 16). -/
def execSeg (lineNum : BitVec 15) (segmentIndex segmentTotal : BitVec 4) (payload : Vector Byte 5) (s : State) :
    Host.Outcome State Fault Refusal :=
  processSegment (segOperands lineNum segmentIndex segmentTotal payload) s.clearOutputs

end Sys2Proof.Machine
end

