-- ==== Sys2Proof/Machine/Records.lean ====
section
/-! DEFINITION. The six Intel HEX record handlers (44_record_dispatch). A handler answers the state it leaves and its
boolean result: true, the line is accepted; false, it is rejected (R231). -/

namespace Sys2Proof.Machine

/-- The write of a data record whose bound check passed (44_record_dispatch R232, R235): nothing under `DRY_RUN`, one
call of the flash primitive, or one byte copy. -/
def recordWrite (w : Word) (data : List Byte) (s : State) : State × Bool :=
  if s.cfg.dryRun then (s, true)
  else if inFlash s.cfg s.cfg.flashBufferBase then
    if s.flashReply = 0 then (s.flashWriteBlock w data, true)
    else ((s.flashWriteBlock w data).raise .flashWriteError, false)
  else (s.ramCopy w data, true)

/-- `REC_DATA` (44_record_dispatch R232, R233, R234). -/
def recordData (r : HexRecord) (s : State) : State × Bool :=
  let a := imageAddress s.ctx r
  let e := endAddress s.ctx r
  let s := s.updateBounds a e
  if windowEnd s.cfg < e then (s.raise .addressOutOfRange, false)
  else recordWrite (stageAddress s.cfg a) (dataBytes r) s

/-- `REC_EOF` (44_record_dispatch R240, R241): the record's own operands are not examined. -/
def recordEof (s : State) : State × Bool :=
  if atLastLine s.ctx then ({ s with ctx.eofReceived := true }, true) else (s, false)

/-- `REC_ESA` (44_record_dispatch R242). -/
def recordEsa (r : HexRecord) (s : State) : State × Bool :=
  ({ s with ctx.baseAddress := segmentBase r }, true)

/-- `REC_SSA` (44_record_dispatch R244): accepted and ignored. -/
def recordSsa (s : State) : State × Bool := (s, true)

/-- `REC_ELA` (44_record_dispatch R246). -/
def recordEla (r : HexRecord) (s : State) : State × Bool :=
  ({ s with ctx.baseAddress := linearBase r }, true)

/-- `REC_SLA` (44_record_dispatch R248): accepted and ignored. -/
def recordSla (s : State) : State × Bool := (s, true)

/-- `DISPATCH(pl)` (44_record_dispatch R230). It is called only with `pl.valid = 1`, so no type above 5 reaches it; such
a type selects no handler (30_encoding R112). -/
def dispatchRecord (pl : ParsedLine) (s : State) : State × Bool :=
  match pl.recordType.toNat with
  | 0 => recordData pl.record s
  | 1 => recordEof s
  | 2 => recordEsa pl.record s
  | 3 => recordSsa s
  | 4 => recordEla pl.record s
  | 5 => recordSla s
  | _ => (s, false)

/-- A handler's state and result as an outcome: the boolean is the return value (44_record_dispatch R231). -/
def handlerOutcome (p : State × Bool) : Host.Outcome State Fault Refusal := .next (p.1.setRet (.bool p.2))

/-- `REC_DATA` (44_record_dispatch R232). -/
def execRecData (r : HexRecord) (s : State) : Host.Outcome State Fault Refusal :=
  handlerOutcome (recordData r s.clearOutputs)

/-- `REC_EOF` (44_record_dispatch R240). -/
def execRecEof (_r : HexRecord) (s : State) : Host.Outcome State Fault Refusal :=
  handlerOutcome (recordEof s.clearOutputs)

/-- `REC_ESA` (44_record_dispatch R242). -/
def execRecEsa (r : HexRecord) (s : State) : Host.Outcome State Fault Refusal :=
  handlerOutcome (recordEsa r s.clearOutputs)

/-- `REC_SSA` (44_record_dispatch R244). -/
def execRecSsa (_r : HexRecord) (s : State) : Host.Outcome State Fault Refusal :=
  handlerOutcome (recordSsa s.clearOutputs)

/-- `REC_ELA` (44_record_dispatch R246). -/
def execRecEla (r : HexRecord) (s : State) : Host.Outcome State Fault Refusal :=
  handlerOutcome (recordEla r s.clearOutputs)

/-- `REC_SLA` (44_record_dispatch R248). -/
def execRecSla (_r : HexRecord) (s : State) : Host.Outcome State Fault Refusal :=
  handlerOutcome (recordSla s.clearOutputs)

end Sys2Proof.Machine
end

