-- ==== Sys2Proof/Machine/Ports.lean ====
section
/-! DEFINITION. The six port operations (45_transfer_control), the tick with its priority list, line finalisation and
the file-CRC gate. -/

namespace Sys2Proof.Machine

/-! ### The tick -/

/-- Acceptance of a line after its handler succeeded (45_transfer_control R275, R276): feed the file CRC with the
line's text, advance the index. -/
def acceptLine (s : State) : State :=
  let s := s.feedFileCrc (lineText s.ctx.lineBuf)
  { s with ctx.currentLineIndex := s.ctx.currentLineIndex + 1#16 }

/-- `FINALISE_LINE()` (45_transfer_control R275): parse, dispatch, accept or reject; the line is reset either way. -/
def finaliseLine (s : State) : State :=
  let pl := parseLineBuf s.cfg.hexAcceptLower s.ctx.lineBuf
  if pl.valid then
    let p := dispatchRecord pl s
    if p.2 then (acceptLine p.1).lineReset else (p.1.raise .lineProcessingError).lineReset
  else (s.raise .lineParseError).lineReset

/-- `FILE_CRC_GATE()` (45_transfer_control R280). -/
def fileCrcGate (s : State) : State :=
  if fileCrcMatches s.ctx then
    ({ s with ctx.complete := true, ctx.inProgress := false }).emit .transferComplete
  else s.terminalError .fileChecksumError

/-- Both one-shot flags are consumed (45_transfer_control R274). -/
def consumeInit (s : State) : State := { s with ctx.newInitPending := false, ctx.initError := false }

/-- Step 1 of the tick: silent when no transfer is under way (45_transfer_control R271), or, under
`IDLE_BAD_INIT_REPORT`, the report of a bad Init (R283). -/
def idleTick (s : State) : State :=
  if s.cfg.idleBadInitReport && s.ctx.newInitPending && s.ctx.initError then (consumeInit s).emit .error
  else s.emit .none

/-- Step 4 of the tick: a pending Init frame is reported (45_transfer_control R274). -/
def reportInit (s : State) : State :=
  (consumeInit s).emit (if s.ctx.initError then .error else .sendLine)

/-- The priority list of the tick (45_transfer_control R270), for a state whose clock is sampled. -/
def tickSteps (s : State) : State :=
  if s.ctx.inProgress = false then idleTick s
  else if transferTimedOut s.cfg s.now s.ctx then s.terminalError .inactivityTimeout
  else if segmentTimedOut s.cfg s.now s.ctx then (s.raise .segmentTimeout).emit .sendLine
  else if s.ctx.newInitPending then reportInit s
  else if ready s.ctx then (finaliseLine s).emit .sendLine
  else if s.ctx.eofReceived then fileCrcGate s
  else s.emit .none

/-! ### The meanings -/

/-- `OP_RESET` (45_transfer_control R260). -/
def execOpReset (s : State) : Host.Outcome State Fault Refusal := .next s.clearOutputs.resetRegisters

/-- `OP_ABORT` (45_transfer_control R261). -/
def execOpAbort (s : State) : Host.Outcome State Fault Refusal := .next s.clearOutputs.resetRegisters

/-- `OP_FRAME(buf, now)` (45_transfer_control R262): classify, unpack, process. -/
def execOpFrame (buf : Frame) (now : Word) (s : State) : Host.Outcome State Fault Refusal :=
  let s := { s.clearOutputs with now := now }
  match classify buf with
  | .init => .next (processInit (unpackInitFrame buf) s)
  | .segment => processSegment (unpackSegFrame buf) s

/-- `OP_TICK(now)` (45_transfer_control R270). -/
def execOpTick (now : Word) (s : State) : Host.Outcome State Fault Refusal :=
  .next (tickSteps { s.clearOutputs with now := now })

/-- `Q_IN_PROGRESS` (45_transfer_control R290). -/
def execQInProgress (s : State) : Host.Outcome State Fault Refusal :=
  .next (s.clearOutputs.setRet (.bool s.ctx.inProgress))

/-- `Q_COMPLETE` (45_transfer_control R291). -/
def execQComplete (s : State) : Host.Outcome State Fault Refusal :=
  .next (s.clearOutputs.setRet (.bool s.ctx.complete))

end Sys2Proof.Machine
end

