-- ==== Sys2Proof/Machine/Primitives.lean ====
section
/-! DEFINITION. The internal primitives (40_crc32, 41_frame_codec, 43_hex_line). Each hands its result back; only
`CRC32_UPD` writes a register. -/

namespace Sys2Proof.Machine

/-- `CRC32(buf, len)` (40_crc32 R144): a computation of its own, which leaves `file_crc_reg` alone (R147, R366). -/
def execCrc32 (buf : List Byte) (s : State) : Host.Outcome State Fault Refusal :=
  .next (s.clearOutputs.setRet (.word (crc32Of buf)))

/-- `CRC32_UPD(buf, len)` (40_crc32 R145). -/
def execCrc32Upd (buf : List Byte) (s : State) : Host.Outcome State Fault Refusal :=
  let s := s.clearOutputs.feedFileCrc buf
  .next (s.setRet (.word (computedFileCrc32 s.ctx)))

/-- `UNPACK_INIT(buf)` (41_frame_codec R162). -/
def execUnpackInit (buf : Frame) (s : State) : Host.Outcome State Fault Refusal :=
  .next (s.clearOutputs.setRet (.initFields (unpackInitFrame buf)))

/-- `PACK_INIT(line_count, file_crc32, init_crc16)` (41_frame_codec R164). -/
def execPackInit (lineCount : BitVec 15) (fileCrc32 : Word) (initCrc16 : Half) (s : State) :
    Host.Outcome State Fault Refusal :=
  .next (s.clearOutputs.setRet (.frame (packInitFrame lineCount fileCrc32 initCrc16)))

/-- `UNPACK_SEG(buf)` (41_frame_codec R166). -/
def execUnpackSeg (buf : Frame) (s : State) : Host.Outcome State Fault Refusal :=
  .next (s.clearOutputs.setRet (.segFields (unpackSegFrame buf)))

/-- `PACK_SEG(line_num, segment_index, segment_total, payload)` (41_frame_codec R168). -/
def execPackSeg (lineNum : BitVec 15) (segmentIndex segmentTotal : BitVec 4) (payload : Vector Byte 5) (s : State) :
    Host.Outcome State Fault Refusal :=
  .next (s.clearOutputs.setRet (.frame (packSegFrame lineNum segmentIndex segmentTotal payload)))

/-- `PARSE_LINE(line_buf)` (43_hex_line R204): a result with `valid = 0` is the error kind `LineParseError`
(60_exceptions R314). -/
def execParseLine (s : State) : Host.Outcome State Fault Refusal :=
  let pl := parseLineBuf s.cfg.hexAcceptLower s.ctx.lineBuf
  let s := s.clearOutputs.setRet (.parsed pl)
  .next (if pl.valid then s else s.raise .lineParseError)

end Sys2Proof.Machine
end

