-- ==== Sys2Proof/Machine/Responses.lean ====
section
/-! DEFINITION. The four responses (46_response): the meaning of a response is that it is emitted (R300). -/

namespace Sys2Proof.Machine

/-- `RSP_NONE` (46_response R302): no frame is sent. -/
def execRspNone (s : State) : Host.Outcome State Fault Refusal := .next (s.clearOutputs.emit .none)

/-- `RSP_SEND_LINE` (46_response R303). -/
def execRspSendLine (s : State) : Host.Outcome State Fault Refusal := .next (s.clearOutputs.emit .sendLine)

/-- `RSP_TRANSFER_COMPLETE` (46_response R304). -/
def execRspTransferComplete (s : State) : Host.Outcome State Fault Refusal :=
  .next (s.clearOutputs.emit .transferComplete)

/-- `RSP_ERROR` (46_response R304). -/
def execRspError (s : State) : Host.Outcome State Fault Refusal := .next (s.clearOutputs.emit .error)

end Sys2Proof.Machine
end

