-- ==== Sys2Proof/Machine/Dispatch.lean ====
section
/-! DEFINITION. The meaning of every operation: one arm per constructor, each one direct call. -/

namespace Sys2Proof.Machine

/-- The meaning of an operation. -/
def exec (i : Instr) (s : State) : Host.Outcome State Fault Refusal :=
  match i with
  | .init lc fc ic => Sys2Proof.Machine.execInit lc fc ic s
  | .seg ln si st p => Sys2Proof.Machine.execSeg ln si st p s
  | .recData r => Sys2Proof.Machine.execRecData r s
  | .recEof r => Sys2Proof.Machine.execRecEof r s
  | .recEsa r => Sys2Proof.Machine.execRecEsa r s
  | .recSsa r => Sys2Proof.Machine.execRecSsa r s
  | .recEla r => Sys2Proof.Machine.execRecEla r s
  | .recSla r => Sys2Proof.Machine.execRecSla r s
  | .rspNone => Sys2Proof.Machine.execRspNone s
  | .rspSendLine => Sys2Proof.Machine.execRspSendLine s
  | .rspTransferComplete => Sys2Proof.Machine.execRspTransferComplete s
  | .rspError => Sys2Proof.Machine.execRspError s
  | .opReset => Sys2Proof.Machine.execOpReset s
  | .opAbort => Sys2Proof.Machine.execOpAbort s
  | .opFrame buf now => Sys2Proof.Machine.execOpFrame buf now s
  | .opTick now => Sys2Proof.Machine.execOpTick now s
  | .qInProgress => Sys2Proof.Machine.execQInProgress s
  | .qComplete => Sys2Proof.Machine.execQComplete s
  | .crc32 buf => Sys2Proof.Machine.execCrc32 buf s
  | .crc32Upd buf => Sys2Proof.Machine.execCrc32Upd buf s
  | .unpackInit buf => Sys2Proof.Machine.execUnpackInit buf s
  | .packInit lc fc ic => Sys2Proof.Machine.execPackInit lc fc ic s
  | .unpackSeg buf => Sys2Proof.Machine.execUnpackSeg buf s
  | .packSeg ln si st p => Sys2Proof.Machine.execPackSeg ln si st p s
  | .parseLine => Sys2Proof.Machine.execParseLine s

end Sys2Proof.Machine
end

