-- ==== Sys2Proof/Machine/Fetch.lean ====
section
/-! DEFINITION. Where a step's operation comes from. The block has no program counter and fetches nothing
(10_state R40): the host issues operations (00_scope R6), and its requests still to come stand in `State.port`
(log 1). -/

namespace Sys2Proof.Machine

/-- The next request, taken from the port with the flash primitive's answer; none when the host issues nothing. -/
def State.takeRequest (s : State) : Option (Instr × State) :=
  match s.port with
  | [] => none
  | r :: rest => some (r.op.instr, { s with port := rest, flashReply := r.flashReply })

/-- Puts a request before the others. -/
def State.request (op : PortOp) (s : State) : State :=
  { s with port := ⟨op, s.flashReply⟩ :: s.port }

/-- Stands an encoded operation where the block takes it from (log 2): a frame is the argument of an `OP_FRAME`; the
text of a record is a ready line in the line buffer of a transfer under way, and an `OP_TICK` comes next (30_encoding
R115). A response is an output, which nothing presents. -/
def State.present (e : Encoded) (s : State) : State :=
  match e.layer with
  | .frame =>
    match frameOfBytes e.bytes with
    | some buf => s.request (.frame buf s.now)
    | none => s
  | .record =>
    let n := (e.bytes.length + 4) / 5
    State.request (.tick s.now)
      { s with
        ctx.inProgress := true
        ctx.newInitPending := false
        ctx.lastFrameMs := s.now
        ctx.segmentTotal := BitVec.ofNat 8 n
        ctx.segmentsReceived := BitVec.ofNat 9 (2 ^ n - 1)
        ctx.lineBuf := lineOf e.bytes }
  | .response => s

/-- The word of an opcode-table row, stood where the next step takes it from (log 2). -/
def State.presentWord (s : State) (nbits w : Nat) : State :=
  match tableWord nbits w with
  | some e => s.present e
  | none => s

end Sys2Proof.Machine
end

