-- ==== Sys2Proof/Machine/Step.lean ====
section
/-! DEFINITION. One step: the host's next request is carried out as one atomic operation (00_scope R6). With no request
the block is idle and holds its state (60_exceptions R339). -/

namespace Sys2Proof.Machine

/-- One step of the machine. -/
def step (s : State) : Host.Outcome State Fault Refusal :=
  match s.takeRequest with
  | none => .next s
  | some p => exec p.1 p.2

/-- The state in which the very next step carries out the instruction of an opcode-table word (log 2). -/
def State.withFetchWord (s : State) (nbits w : Nat) : State := s.presentWord nbits w

end Sys2Proof.Machine
end

