-- ==== Sys2Proof/Safety.lean ====
section
/-! DEFINITION. The terms claims are made in: the invariant of the machine, what an operation leaves alone, where staged
bytes may go, and sequences of operations. -/

namespace Sys2Proof.Machine

/-! ### The invariant -/

/-- How many segments the current line has; 0 when the count is not yet known (10_state R29). -/
def knownTotal (c : Context) : Nat := if c.segmentTotal = noTotal then 0 else c.segmentTotal.toNat

/-- The states every operation of the host keeps (10_state section 9). -/
structure Inv (s : State) : Prop where
  /-- Invariant 1 (10_state R29, R50): `segment_total` is -1 or 1 to 9. -/
  totalLegal : s.ctx.segmentTotal = noTotal ∨ (1 ≤ s.ctx.segmentTotal.toNat ∧ s.ctx.segmentTotal.toNat ≤ 9)
  /-- Bits at and above `segment_total` are 0 (10_state R30). -/
  bitsBelowTotal : ∀ i, knownTotal s.ctx ≤ i → s.ctx.segmentsReceived.getLsbD i = false
  /-- A slot no segment of the line was stored in holds pad bytes (10_state R31, R61). -/
  emptySlots : ∀ p (h : p < 45), s.ctx.segmentsReceived.getLsbD (p / 5) = false → s.ctx.lineBuf[p] = padByte
  /-- The flags are one of the four combinations of 10_state R41. -/
  flagsLegal : (transferState s.ctx).isSome
  /-- Invariant 6 (10_state R55): a complete transfer's file CRC is the one announced. -/
  completeMatches : s.ctx.complete = true → fileCrcMatches s.ctx = true ∧ s.ctx.inProgress = false
  /-- `init_error` stands only with `new_init_pending` (45_transfer_control R264, R265, R274). -/
  errorPending : s.ctx.initError = true → s.ctx.newInitPending = true
  /-- `base_address` is what `REC_ESA` and `REC_ELA` can write (10_state R22). -/
  baseRange : s.ctx.baseAddress.toNat ≤ 0xFFFF0000 ∧ s.ctx.baseAddress.toNat % 16 = 0
  /-- `expected_lines` comes from a 15-bit field (10_state R25). -/
  linesRange : s.ctx.expectedLines.toNat ≤ 0x7FFF
  /-- `current_line_index` never passes 0x8000, where no segment can be received (10_state R28). -/
  indexRange : s.ctx.currentLineIndex.toNat ≤ 0x8000 ∧
    (s.ctx.currentLineIndex.toNat = 0x8000 → s.ctx.segmentTotal = noTotal)
  /-- The staging memory is in its canonical form. -/
  stageWf : Memory.wf s.stage = true

/-! ### Frames -/

/-- Every byte of STAGE reads as before. -/
def StageUnchanged (s t : State) : Prop := ∀ a, Memory.read t.stage a = Memory.read s.stage a

/-- What no operation of the block writes: the parameters, the requests still to come, the flash primitive's
answer. -/
def EnvUnchanged (s t : State) : Prop := t.cfg = s.cfg ∧ t.port = s.port ∧ t.flashReply = s.flashReply

/-- Nothing but the outputs and the transfer context differs; the clock sample is `now`. -/
def OnlyContext (now : Word) (s t : State) : Prop :=
  EnvUnchanged s t ∧ StageUnchanged s t ∧ t.freeCount = s.freeCount ∧ t.now = now

/-- The outputs of an operation that returned `v` and did nothing else outside. -/
def returned (v : Ret) : Outputs := { Outputs.empty with ret := v }

/-- The outputs of an operation that raised one error kind and returned nothing. -/
def raisedOnly (k : ErrorKind) : Outputs := { Outputs.empty with raised := [k] }

/-- The outputs of a tick that emitted a code with no error raised and no flash call. -/
def emitted (cfg : Config) (code : ResponseCode) (line : Half) : Outputs :=
  { Outputs.empty with
    ret := .response code line
    sent := if code = .none then none else some (encodeResponse cfg.respPad code) }

/-- The registers after a line reset (10_state R61). -/
def freshLine (c : Context) : Context :=
  { c with segmentTotal := noTotal, segmentsReceived := 0#9, lineBuf := padLine }

/-! ### The staging window -/

/-- An address of the staging window (20_memory R76). -/
def InWindow (cfg : Config) (a : Nat) : Prop := cfg.flashBufferBase.toNat ≤ a ∧ a < windowEnd cfg

/-- The `k`-th address of a write at `w` (20_memory R75, R82). -/
def byteAddress (w : Word) (k : Nat) : Nat := (w.toNat + k) % 2 ^ 32

/-! ### Ticks -/

/-- A tick at `now` that reaches step 5 and finds the line ready (45_transfer_control R270). -/
def FinalisesAt (now : Word) (s : State) : Prop :=
  s.ctx.inProgress = true ∧ transferTimedOut s.cfg now s.ctx = false ∧ ready s.ctx = true ∧
    s.ctx.newInitPending = false

/-! ### Sequences of operations -/

/-- Operations one after the other, stopping at the first that does not answer a next state. -/
def execAll : List Instr → State → Host.Outcome State Fault Refusal
  | [], s => .next s
  | i :: is, s =>
    match exec i s with
    | .next t => execAll is t
    | .fault r => .fault r
    | .refused r => .refused r

/-- The five characters of segment `j` of a line (20_memory R71). -/
def slotOf (l : Line) (j : Nat) : Vector Byte 5 :=
  #v[lineByte l (5 * j), lineByte l (5 * j + 1), lineByte l (5 * j + 2), lineByte l (5 * j + 3), lineByte l (5 * j + 4)]

/-- The Segment frame of line `ln` that carries segment `j` of `total` (30_encoding R101). -/
def segmentOf (ln : BitVec 15) (total : BitVec 4) (l : Line) (j : BitVec 4) : Instr :=
  .seg ln j total (slotOf l j.toNat)

/-! ### Text -/

/-- The upper-case form of a character where lower-case hex digits are accepted (30_encoding R111). -/
def foldCase (lower : Bool) (c : Byte) : Byte :=
  if lower = true ∧ 0x61#8 ≤ c ∧ c ≤ 0x66#8 then c - 0x20#8 else c

/-- A line whose parse comes to the data bytes, with byte count `bc`: it passes checks 1 to 5 of 43_hex_line R204, and its
address digits are hex. -/
structure DataReached (lower : Bool) (l : Line) (bc : Byte) : Prop where
  long : 11 ≤ effectiveLength l
  colon : lineByte l 0 = 0x3A#8
  count : hex2 lower l 1 = some bc
  countRange : bc ≤ 16#8
  length : effectiveLength l = 11 + 2 * bc.toNat
  address : (hex2 lower l 3).isSome ∧ (hex2 lower l 5).isSome
  type : ∃ rt, hex2 lower l 7 = some rt ∧ rt ≤ 5#8

end Sys2Proof.Machine
end

