-- ==== Sys2Proof/Certificates/Slice0/Obligations.lean ====
section
/-! DEFINITION. The statements for the provers. Each cites the rules of spec/ it rests on; where a clause rests on a
decision the spec marks as its own (D<n> of spec/92_eei_decisions.md) or on a choice of the model, the docstring names
it. -/

open Sys2Proof Sys2Proof.Machine

/-! ### Encodings -/

/-- Decode and encode agree (41_frame_codec R170, R171 and 30_encoding section 6): every well-formed instruction that has
an encoding is read back from it with every operand. Field positions are the spec's decisions D2 and D3, the response
layout D26. -/
def Obligations.EncodedInstructionDecodesBack : Prop :=
  ∀ (cfg : Config) (i : Instr) (e : Encoded),
    wellFormed i = true → encode cfg i = some e → decode cfg e = .ok i

/-- The other direction for frames (41_frame_codec R172, which the spec marks as derived): encoding the instruction read
from any eight bytes gives those bytes. -/
def Obligations.FrameBytesEncodeBack : Prop :=
  ∀ (cfg : Config) (buf : Frame), encode cfg (decodeFrame buf) = some ⟨.frame, buf.toList⟩

/-- The fields of both frame kinds, byte by byte as the "bytes" columns of 30_encoding R100 and R101 give them
(positions: decisions D2, D3), handed back by `UNPACK_INIT` and `UNPACK_SEG`; nothing else changes. The check is the low
half of the CRC-32 of the first six bytes (R105; CRC parameters by general knowledge, log 4). -/
def Obligations.UnpackedFieldsComeFromTheirBytes : Prop :=
  ∀ (buf : Frame) (s : State),
    exec (.unpackInit buf) s = .next { s with
      out := returned (.initFields
        ⟨(buf[1] ++ buf[0]) >>> 1, buf[5] ++ buf[4] ++ buf[3] ++ buf[2], buf[7] ++ buf[6],
          low16 (crc32Of [buf[0], buf[1], buf[2], buf[3], buf[4], buf[5]])⟩) } ∧
    exec (.unpackSeg buf) s = .next { s with
      out := returned (.segFields
        ⟨(buf[1] ++ buf[0]) >>> 1, buf[2] &&& 0x0F#8, buf[2] >>> 4, #v[buf[3], buf[4], buf[5], buf[6], buf[7]]⟩) }

/-- `PACK_INIT` and `PACK_SEG` hand back a frame of their kind whose unpacked fields are the operands (41_frame_codec
R164, R168, R170, R171; whether or not the check is right, which the spec marks as derived); nothing else changes. -/
def Obligations.PackedFramesHoldTheirFields : Prop :=
  (∀ (lc : BitVec 15) (fc : Word) (ic : Half) (s : State), ∃ buf : Frame,
    exec (.packInit lc fc ic) s = .next { s with out := returned (.frame buf) } ∧ classify buf = .init ∧
      unpackInitFrame buf = ⟨lc.setWidth 16, fc, ic, low16 (crc32Of (buf.toList.take 6))⟩) ∧
  (∀ (ln : BitVec 15) (si st : BitVec 4) (p : Vector Byte 5) (s : State), ∃ buf : Frame,
    exec (.packSeg ln si st p) s = .next { s with out := returned (.frame buf) } ∧ classify buf = .segment ∧
      unpackSegFrame buf = ⟨ln.setWidth 16, si.setWidth 8, st.setWidth 8, p⟩)

/-- A few words written out from the encodings, one for each layer and kind (30_encoding R100, R101, R108, R110; words of
95_test_vectors sections 2 and 5). Where the fields of a frame lie is decided by D2 and D3 (log 5), the code at byte 0 of
a response by D26 (log 18), and the zero data bytes past a record's byte count by D18 (log 14). -/
def Obligations.WrittenWordsDecode : Prop :=
  decode Config.platform ⟨.frame, [0x02, 0x00, 0xBA, 0xD2, 0x6B, 0x83, 0xFE, 0x2F]⟩ =
      .ok (.init 1#15 0x836BD2BA#32 0x2FFE#16) ∧
    decode Config.platform ⟨.frame, [0x47, 0x02, 0x92, 0x41, 0x42, 0x43, 0x44, 0x45]⟩ =
      .ok (.seg 0x0123#15 2#4 9#4 #v[0x41, 0x42, 0x43, 0x44, 0x45]) ∧
    decode Config.platform ⟨.record, [0x3A, 0x30, 0x32, 0x30, 0x30, 0x30, 0x30, 0x30, 0x32, 0x31, 0x32, 0x30, 0x30, 0x45, 0x41]⟩ =
      .ok (.recEsa ⟨0x02#8, 0#16, #v[0x12, 0, 0, 0, 0, 0, 0, 0, 0, 0, 0, 0, 0, 0, 0, 0], 0xEA#8⟩) ∧
    decode Config.platform ⟨.response, [0x01, 0, 0, 0, 0, 0, 0, 0]⟩ = .ok .rspSendLine

/-- `PARSE_LINE` accepts exactly the texts of well-formed records of types 00h to 05h, and finds the record they carry
(43_hex_line R204 to R211, 30_encoding R110 to R112; lower case by decision D17, the unused data bytes by D18). -/
def Obligations.ValidLinesAreRecordTexts : Prop :=
  ∀ (lower : Bool) (l : Line),
    (∀ (ty : Byte) (r : HexRecord), ty ≤ 5#8 → recordWellFormed ty r = true →
      (lineText l).map (foldCase lower) = recordText ty r → parseLineBuf lower l = ⟨true, ty, r⟩) ∧
    ((parseLineBuf lower l).valid = true →
      ∃ (ty : Byte) (r : HexRecord), ty ≤ 5#8 ∧ recordWellFormed ty r = true ∧
        (lineText l).map (foldCase lower) = recordText ty r)

/-- `PARSE_LINE` on the line buffer hands back the record its text carries, or an invalid result where it carries none
(43_hex_line R204; lower case by decision D17, log 26, the unused data bytes by D18, log 14); nothing else changes. That
`PARSE_LINE` carried out alone also raises `LineParseError` is the model's choice (log 29): R204 gives it a result only,
and the kind of 60_exceptions R314 is raised in line finalisation (45_transfer_control R275). -/
def Obligations.ParseLineFindsTheRecord : Prop :=
  ∀ (s : State),
    (∀ (ty : Byte) (r : HexRecord), ty ≤ 5#8 → recordWellFormed ty r = true →
      (lineText s.ctx.lineBuf).map (foldCase s.cfg.hexAcceptLower) = recordText ty r →
        exec .parseLine s = .next { s with out := returned (.parsed ⟨true, ty, r⟩) }) ∧
    ((∀ (ty : Byte) (r : HexRecord), ty ≤ 5#8 → recordWellFormed ty r = true →
      (lineText s.ctx.lineBuf).map (foldCase s.cfg.hexAcceptLower) ≠ recordText ty r) →
        ∃ pl : ParsedLine, pl.valid = false ∧
          exec .parseLine s =
            .next { s with out := { returned (.parsed pl) with raised := [.lineParseError] } })

/-- What the buffer holds at and after the first pad byte is neither parsed nor hashed (43_hex_line R214). Two states that
differ only there leave the same state when the line is finalised; that they do so for a rejected line too, whose buffer
R214 alone would leave different, rests on the line reset after a rejection, decision D14 (log 19). -/
def Obligations.BytesAfterThePadAreIgnored : Prop :=
  ∀ (s : State) (l : Line), lineText l = lineText s.ctx.lineBuf →
    finaliseLine { s with ctx.lineBuf := l } = finaliseLine s

/-! ### The step -/

/-- The model's choice of how the host's operations arrive (log 1; 00_scope R6, 60_exceptions R339): a step carries out
the oldest request, and without one the state holds. -/
def Obligations.StepCarriesOutTheRequest : Prop :=
  ∀ (s : State), (s.port = [] → step s = .next s) ∧
    (∀ (r : Request) (rest : List Request), s.port = r :: rest →
      step s = exec r.op.instr { s with port := rest, flashReply := r.flashReply })

/-- A step runs the decoded instruction: when the next request is a frame whose eight bytes decode to `i`, the step is
`exec i` with the request taken and the clock sampled (45_transfer_control R262, 30_encoding R115; log 1, log 16). -/
def Obligations.StepRunsTheDecodedFrame : Prop :=
  ∀ (s : State) (buf : Frame) (now : Word) (reply : Nat) (rest : List Request) (i : Instr),
    s.port = ⟨.frame buf now, reply⟩ :: rest → decode s.cfg ⟨.frame, buf.toList⟩ = .ok i → wellFormed i = true →
      step s = exec i { s with port := rest, flashReply := reply, now := now }

/-- The second level of decoding (30_encoding R115): a tick that finds a ready, valid line runs the record's operation,
and then accepts or rejects the line by its result (45_transfer_control R275 to R277; the reset after a rejection is
decision D14, the feed after the handler D33). -/
def Obligations.TickRunsTheRecordOfTheLine : Prop :=
  ∀ (now : Word) (s : State) (ty : Byte) (r : HexRecord) (i : Instr),
    FinalisesAt now s → parseLineBuf s.cfg.hexAcceptLower s.ctx.lineBuf = ⟨true, ty, r⟩ → recordInstr ty r = some i →
      ∃ (h t : State) (b : Bool),
        exec i { s with now := now } = .next h ∧ h.out.ret = .bool b ∧ exec (.opTick now) s = .next t ∧
        t.ctx = freshLine (if b then
            { h.ctx with
              fileCrcReg := crcFeed h.ctx.fileCrcReg (lineText s.ctx.lineBuf)
              currentLineIndex := h.ctx.currentLineIndex + 1#16 }
          else h.ctx) ∧
        t.out.ret = .response .sendLine t.ctx.currentLineIndex ∧
        t.out.sent = some (encodeResponse s.cfg.respPad .sendLine) ∧
        t.out.raised = h.out.raised ++ (if b then [] else [.lineProcessingError]) ∧
        t.out.flashCall = h.out.flashCall ∧
        EnvUnchanged s t ∧ StageUnchanged h t ∧ t.freeCount = h.freeCount ∧ t.now = now

/-! ### Reset and abort -/

/-- `OP_RESET` and `OP_ABORT` complete and leave every register at its reset value (10_state R60, 45_transfer_control
R260, R261; the values the source omits are decision D24, the equality of the two D25); STAGE, the parameters and the
requests are not touched (70_reset_and_hazards R353, D37). -/
def Obligations.ResetAndAbortLeaveTheResetValues : Prop :=
  ∀ (s : State) (i : Instr), i = .opReset ∨ i = .opAbort → ∃ t, exec i s = .next t ∧
    t.ctx.baseAddress = 0#32 ∧ t.ctx.minAddress = 0xFFFFFFFF#32 ∧ t.ctx.maxAddress = 0#32 ∧
    t.ctx.eofReceived = false ∧ t.ctx.expectedLines = 0#16 ∧ t.ctx.expectedFileCrc32 = 0#32 ∧
    t.ctx.fileCrcReg = 0xFFFFFFFF#32 ∧ t.ctx.currentLineIndex = 0#16 ∧ t.ctx.segmentTotal.toInt = -1 ∧
    t.ctx.segmentsReceived = 0#9 ∧ (∀ p (h : p < 45), t.ctx.lineBuf[p] = 0xFF#8) ∧ t.ctx.inProgress = false ∧
    t.ctx.complete = false ∧ t.ctx.lastFrameMs = 0#32 ∧ t.ctx.newInitPending = false ∧ t.ctx.initError = false ∧
    transferState t.ctx = some .idle ∧ t.out = Outputs.empty ∧ OnlyContext s.now s t

/-! ### Init frames -/

/-- A valid Init frame starts a transfer from the reset registers (45_transfer_control R264; the time stamp is decision
D7), both as the instruction and as the argument of `OP_FRAME`. -/
def Obligations.ValidInitStartsATransfer : Prop :=
  ∀ (s : State) (lc : BitVec 15) (fc : Word) (ic : Half) (now : Word),
    ic = low16 (crc32Of ((packInitFrame lc fc ic).toList.take 6)) → ∃ t,
      exec (.init lc fc ic) { s with now := now } = .next t ∧
      exec (.opFrame (packInitFrame lc fc ic) now) s = .next t ∧
      t.ctx = { Context.reset with
        inProgress := true
        expectedLines := lc.setWidth 16
        expectedFileCrc32 := fc
        newInitPending := true
        lastFrameMs := now } ∧
      transferState t.ctx = some .receiving ∧ t.out = Outputs.empty ∧ OnlyContext now s t

/-- A bad Init frame sets the two one-shot flags and nothing else (45_transfer_control R265, decision D6). -/
def Obligations.BadInitOnlySetsItsFlags : Prop :=
  ∀ (s : State) (lc : BitVec 15) (fc : Word) (ic : Half) (now : Word),
    ic ≠ low16 (crc32Of ((packInitFrame lc fc ic).toList.take 6)) → ∃ t,
      exec (.init lc fc ic) { s with now := now } = .next t ∧
      exec (.opFrame (packInitFrame lc fc ic) now) s = .next t ∧
      t.ctx = { s.ctx with initError := true, newInitPending := true } ∧
      t.out = raisedOnly .initChecksumError ∧ OnlyContext now s t

/-! ### Segment frames -/

/-- 42_segment_reassembly R185: a Segment frame that passes the acceptance rules stores its five bytes, whatever they
are, in its slot, and marks its bit. Every other byte of the line, every other bit (none is left from before when the
total is adopted), every other register and all of STAGE stay; `last_frame_ms` is left to
`Obligations.AcceptedSegmentRestartsTheTimers`. -/
def Obligations.AcceptedSegmentIsStored : Prop :=
  ∀ (s : State) (ln : BitVec 15) (si st : BitVec 4) (p : Vector Byte 5),
    s.ctx.inProgress = true → ln.setWidth 16 = s.ctx.currentLineIndex → 1#4 ≤ st → st ≤ 9#4 →
    (s.ctx.segmentTotal = noTotal ∨ s.ctx.segmentTotal = st.setWidth 8) → si < st → ∃ t,
      exec (.seg ln si st p) s = .next t ∧
      (∀ k (h : k < 5), lineByte t.ctx.lineBuf (5 * si.toNat + k) = p[k]) ∧
      (∀ q, (q < 5 * si.toNat ∨ 5 * si.toNat + 5 ≤ q) → lineByte t.ctx.lineBuf q = lineByte s.ctx.lineBuf q) ∧
      t.ctx.segmentsReceived.getLsbD si.toNat = true ∧
      (∀ j, j ≠ si.toNat → t.ctx.segmentsReceived.getLsbD j =
        (decide (s.ctx.segmentTotal ≠ noTotal) && s.ctx.segmentsReceived.getLsbD j)) ∧
      t.ctx = { s.ctx with
        segmentTotal := st.setWidth 8
        segmentsReceived := t.ctx.segmentsReceived
        lineBuf := t.ctx.lineBuf
        lastFrameMs := t.ctx.lastFrameMs } ∧
      t.out = Outputs.empty ∧ OnlyContext s.now s t

/-- An accepted Segment frame given to `OP_FRAME` is the instruction at the sampled clock, and sets `last_frame_ms` to
it (45_transfer_control R262, 42_segment_reassembly R186; decision D12). -/
def Obligations.AcceptedSegmentRestartsTheTimers : Prop :=
  ∀ (s : State) (ln : BitVec 15) (si st : BitVec 4) (p : Vector Byte 5) (now : Word),
    s.ctx.inProgress = true → ln.setWidth 16 = s.ctx.currentLineIndex → 1#4 ≤ st → st ≤ 9#4 →
    (s.ctx.segmentTotal = noTotal ∨ s.ctx.segmentTotal = st.setWidth 8) → si < st → ∃ t,
      exec (.opFrame (packSegFrame ln si st p) now) s = .next t ∧
      exec (.seg ln si st p) { s with now := now } = .next t ∧
      t.ctx.lastFrameMs = now ∧ transferTimedOut t.cfg now t.ctx = false ∧ segmentTimedOut t.cfg now t.ctx = false

/-- 42_segment_reassembly R182: a frame of another line than the one awaited is dropped with no state change; at index
0x8000 and above no frame can match. -/
def Obligations.SegmentOfAnotherLineIsDropped : Prop :=
  ∀ (s : State) (ln : BitVec 15) (si st : BitVec 4) (p : Vector Byte 5),
    (0x8000#16 ≤ s.ctx.currentLineIndex → ln.setWidth 16 ≠ s.ctx.currentLineIndex) ∧
    (s.ctx.inProgress = true → ln.setWidth 16 ≠ s.ctx.currentLineIndex →
      exec (.seg ln si st p) s = .next { s with out := raisedOnly .segmentMismatch })

/-- A frame whose count is not adoptable, or disagrees with the adopted one, is dropped with no state change
(42_segment_reassembly R183; the range of the first case is decision D10). -/
def Obligations.SegmentCountMismatchIsDropped : Prop :=
  ∀ (s : State) (ln : BitVec 15) (si st : BitVec 4) (p : Vector Byte 5),
    s.ctx.inProgress = true → ln.setWidth 16 = s.ctx.currentLineIndex →
    ((s.ctx.segmentTotal = noTotal ∧ (st = 0#4 ∨ 10#4 ≤ st)) ∨
      (s.ctx.segmentTotal ≠ noTotal ∧ st.setWidth 8 ≠ s.ctx.segmentTotal)) →
      exec (.seg ln si st p) s = .next { s with out := raisedOnly .segmentMismatch }

/-- A frame whose index is not below its count is dropped, and a count it adopted stays adopted
(42_segment_reassembly R184, R191; decision D11). -/
def Obligations.SegmentIndexPastTheTotalIsDropped : Prop :=
  ∀ (s : State) (ln : BitVec 15) (si st : BitVec 4) (p : Vector Byte 5),
    s.ctx.inProgress = true → ln.setWidth 16 = s.ctx.currentLineIndex → st ≤ si →
    (s.ctx.segmentTotal = noTotal → 1#4 ≤ st → st ≤ 9#4 →
      exec (.seg ln si st p) s = .next { s with
        ctx.segmentTotal := st.setWidth 8
        ctx.segmentsReceived := 0#9
        out := raisedOnly .segmentMismatch }) ∧
    (s.ctx.segmentTotal ≠ noTotal → s.ctx.segmentTotal = st.setWidth 8 →
      exec (.seg ln si st p) s = .next { s with out := raisedOnly .segmentMismatch })

/-- A Segment frame while no transfer is under way has no effect and is no error (42_segment_reassembly R181, decision
D9). -/
def Obligations.SegmentWhileIdleIsIgnored : Prop :=
  ∀ (s : State) (ln : BitVec 15) (si st : BitVec 4) (p : Vector Byte 5),
    s.ctx.inProgress = false → exec (.seg ln si st p) s = .next { s with out := Outputs.empty }

/-- 42_segment_reassembly R188: a frame that repeats an accepted one rewrites its slot with its own bytes and changes
nothing else but `last_frame_ms` (decision D12): no other register, nothing outside the context, and it hands out nothing;
the same bytes again change only that. -/
def Obligations.RepeatedSegmentOverwritesItsSlot : Prop :=
  ∀ (s t : State) (ln : BitVec 15) (si st : BitVec 4) (p q : Vector Byte 5) (now : Word),
    s.ctx.inProgress = true → ln.setWidth 16 = s.ctx.currentLineIndex → 1#4 ≤ st → st ≤ 9#4 →
    (s.ctx.segmentTotal = noTotal ∨ s.ctx.segmentTotal = st.setWidth 8) → si < st →
    exec (.seg ln si st p) s = .next t → ∃ u,
      exec (.seg ln si st q) { t with now := now } = .next u ∧
      (∀ k (h : k < 5), lineByte u.ctx.lineBuf (5 * si.toNat + k) = q[k]) ∧
      (∀ a, (a < 5 * si.toNat ∨ 5 * si.toNat + 5 ≤ a) → lineByte u.ctx.lineBuf a = lineByte t.ctx.lineBuf a) ∧
      u.ctx = { t.ctx with lineBuf := u.ctx.lineBuf, lastFrameMs := u.ctx.lastFrameMs } ∧
      u.out = Outputs.empty ∧ OnlyContext now t u ∧
      (q = p → u = { t with ctx.lastFrameMs := now, now := now })

/-- Order does not matter (42_segment_reassembly R189; 20_memory R71, R89): Segment frames of the awaited line, in any
order and with any repetitions, as long as each segment of the line occurs, leave the line ready with its characters
from address 0 on and pad bytes after them, and change no register but those of the line and the time stamp. That payload
byte `k` lies at byte `3 + k` of the frame is decision D3 (log 5), that every accepted frame writes the time stamp D12
(log 7). -/
def Obligations.SegmentsInAnyOrderBuildTheLine : Prop :=
  ∀ (s : State) (ln : BitVec 15) (total : BitVec 4) (l : Line) (order : List (BitVec 4)),
    s.ctx.inProgress = true → ln.setWidth 16 = s.ctx.currentLineIndex → 1#4 ≤ total → total ≤ 9#4 →
    s.ctx.segmentTotal = noTotal → s.ctx.lineBuf = padLine →
    (∀ j ∈ order, j < total) → (∀ j, j < total → j ∈ order) → ∃ t,
      execAll (order.map (segmentOf ln total l)) s = .next t ∧
      ready t.ctx = true ∧
      (∀ q (h : q < 45), t.ctx.lineBuf[q] = if q < 5 * total.toNat then l[q] else padByte) ∧
      t.ctx = { s.ctx with
        segmentTotal := total.setWidth 8
        segmentsReceived := t.ctx.segmentsReceived
        lineBuf := t.ctx.lineBuf
        lastFrameMs := s.now } ∧
      OnlyContext s.now s t

/-! ### Records -/

/-- Every data record updates the bounds with its absolute address and its end, whatever comes of it, and writes no
other register (44_record_dispatch R233, R236, R251; the widths are decision D19). -/
def Obligations.DataRecordUpdatesTheBounds : Prop :=
  ∀ (r : HexRecord) (s : State), ∃ (t : State) (b : Bool) (lo hi : Word),
    exec (.recData r) s = .next t ∧ t.out.ret = .bool b ∧
    t.ctx = { s.ctx with minAddress := lo, maxAddress := hi } ∧
    lo.toNat = min s.ctx.minAddress.toNat ((s.ctx.baseAddress.toNat + r.address.toNat) % 2 ^ 32) ∧
    hi.toNat = max s.ctx.maxAddress.toNat
      (((s.ctx.baseAddress.toNat + r.address.toNat) % 2 ^ 32 + r.byteCount.toNat) % 2 ^ 32) ∧
    EnvUnchanged s t ∧ t.now = s.now

/-- A data record that passes the bound check is written at its staging address, by one call of the flash primitive that
succeeds, or by a copy when the window is RAM; every other byte of STAGE reads as before (44_record_dispatch R232, R235,
20_memory R75, R80, R82, R89; decisions D19, D20, D22 and, for a record without data, D23). That byte `k` of a flash block
write stands at the staging address plus `k` modulo 2^32 is the model's choice (DEDUCED, log 12): R80 does not say it, only
R82 and the copy of R232 do. -/
def Obligations.DataRecordWritesItsBytes : Prop :=
  ∀ (r : HexRecord) (s : State),
    r.byteCount ≤ 16#8 → endAddress s.ctx r ≤ windowEnd s.cfg → s.cfg.dryRun = false →
    (inFlash s.cfg s.cfg.flashBufferBase = true → s.flashReply = 0) → ∃ t,
      exec (.recData r) s = .next t ∧ t.out.ret = .bool true ∧ t.out.raised = [] ∧ t.out.sent = none ∧
      (∀ k (h : k < 16), k < r.byteCount.toNat →
        Memory.read t.stage (byteAddress (stageAddress s.cfg (imageAddress s.ctx r)) k) = some r.data[k]) ∧
      (∀ a, (∀ k < r.byteCount.toNat, a ≠ byteAddress (stageAddress s.cfg (imageAddress s.ctx r)) k) →
        Memory.read t.stage a = Memory.read s.stage a) ∧
      t.out.flashCall = (if inFlash s.cfg s.cfg.flashBufferBase then
        some ⟨stageAddress s.cfg (imageAddress s.ctx r), dataBytes r⟩ else none) ∧
      t.freeCount = s.freeCount

/-- A data record past the window's end is rejected and not written; under `DRY_RUN` one within it is accepted and not
written (44_record_dispatch R234, R235, 20_memory R77, R83; decisions D19, D21). -/
def Obligations.DataRecordLeavesStageAlone : Prop :=
  ∀ (r : HexRecord) (s : State),
    (windowEnd s.cfg < endAddress s.ctx r → ∃ t, exec (.recData r) s = .next t ∧
      t.out = { returned (.bool false) with raised := [.addressOutOfRange] } ∧ StageUnchanged s t ∧
      t.freeCount = s.freeCount) ∧
    (endAddress s.ctx r ≤ windowEnd s.cfg → s.cfg.dryRun = true → ∃ t, exec (.recData r) s = .next t ∧
      t.out = returned (.bool true) ∧ StageUnchanged s t ∧ t.freeCount = s.freeCount)

/-- A flash write that fails rejects the record; only the bytes it was to write may differ after it, and they hold free
values (20_memory R80, 44_record_dispatch R235, R236, 60_exceptions R320, 93 U9; log 11). That these bytes stand at the
staging address plus `k` modulo 2^32 is the model's choice (DEDUCED, log 12; R80 does not say it). -/
def Obligations.FailedFlashWriteRejectsTheRecord : Prop :=
  ∀ (r : HexRecord) (s : State),
    r.byteCount ≤ 16#8 → endAddress s.ctx r ≤ windowEnd s.cfg → s.cfg.dryRun = false →
    inFlash s.cfg s.cfg.flashBufferBase = true → s.flashReply ≠ 0 → ∃ t,
      exec (.recData r) s = .next t ∧
      t.out = { returned (.bool false) with
        raised := [.flashWriteError]
        flashCall := some ⟨stageAddress s.cfg (imageAddress s.ctx r), dataBytes r⟩ } ∧
      (∀ a, (∀ k < r.byteCount.toNat, a ≠ byteAddress (stageAddress s.cfg (imageAddress s.ctx r)) k) →
        Memory.read t.stage a = Memory.read s.stage a) ∧
      (∀ k < r.byteCount.toNat,
        Memory.read t.stage (byteAddress (stageAddress s.cfg (imageAddress s.ctx r)) k) =
          some (Config.failedFlashByte (s.freeCount + k))) ∧
      t.freeCount = s.freeCount + r.byteCount.toNat

/-- Writes stay inside the window on the platforms 93 U4 names: the image origin is the window's base, the record's
address is not below it, and the window does not pass 2^32 (20_memory R77, which the spec marks as derived). Every byte of
STAGE outside the window then reads as before, even after a failed flash write. -/
def Obligations.StagedBytesStayInTheWindow : Prop :=
  ∀ (r : HexRecord) (s t : State) (a : Nat),
    s.cfg.flashBaseAddr = s.cfg.flashBufferBase → s.cfg.flashBufferBase ≤ imageAddress s.ctx r →
    windowEnd s.cfg ≤ 2 ^ 32 → exec (.recData r) s = .next t → ¬ InWindow s.cfg a →
      Memory.read t.stage a = Memory.read s.stage a

/-- An EOF record is accepted at the last expected line and nowhere else; its own operands do not matter
(44_record_dispatch R240, R241; the comparison without wrap-around is decision D30). -/
def Obligations.EofRecordOnlyAtTheLastLine : Prop :=
  ∀ (r : HexRecord) (s : State), ∃ t, exec (.recEof r) s = .next t ∧
    t.out = returned (.bool (decide (s.ctx.expectedLines.toNat = s.ctx.currentLineIndex.toNat + 1))) ∧
    t.ctx = { s.ctx with
      eofReceived := s.ctx.eofReceived || decide (s.ctx.expectedLines.toNat = s.ctx.currentLineIndex.toNat + 1) } ∧
    OnlyContext s.now s t

/-- 44_record_dispatch R242: the base is replaced by the 16-bit value shifted left by 4, in the range 0 to 0xFFFF0;
missing data bytes read as 0x00 (decision D18), bytes past `data[1]` do not matter; always true, no error, nothing else
written. -/
def Obligations.SegmentAddressRecordSetsTheBase : Prop :=
  ∀ (r : HexRecord) (s : State), ∃ (t : State) (v : Word),
    exec (.recEsa r) s = .next t ∧ t.out = returned (.bool true) ∧ t.ctx = { s.ctx with baseAddress := v } ∧
    v.toNat = (r.data[0].toNat * 256 + r.data[1].toNat) * 16 ∧ v.toNat ≤ 0xFFFF0 ∧
    (wellFormed (.recEsa r) = true → r.byteCount = 0#8 → v = 0#32) ∧
    (wellFormed (.recEsa r) = true → r.byteCount = 1#8 → v.toNat = r.data[0].toNat * 0x1000) ∧
    OnlyContext s.now s t

/-- 44_record_dispatch R246: the base is replaced by the 16-bit value shifted left by 16, in the range 0 to 0xFFFF0000
with its low 16 bits 0; missing data bytes read as 0x00 (decision D18); no error, nothing else written. -/
def Obligations.LinearAddressRecordSetsTheBase : Prop :=
  ∀ (r : HexRecord) (s : State), ∃ (t : State) (v : Word),
    exec (.recEla r) s = .next t ∧ t.out = returned (.bool true) ∧ t.ctx = { s.ctx with baseAddress := v } ∧
    v.toNat = (r.data[0].toNat * 256 + r.data[1].toNat) * 65536 ∧ v.toNat ≤ 0xFFFF0000 ∧ v.toNat % 65536 = 0 ∧
    (wellFormed (.recEla r) = true → r.byteCount = 0#8 → v = 0#32) ∧
    (wellFormed (.recEla r) = true → r.byteCount = 1#8 → v.toNat = r.data[0].toNat * 0x1000000) ∧
    OnlyContext s.now s t

/-- 44_record_dispatch R244, R248: start-address records are accepted and write no register; as lines they still count,
so finalising one feeds its text to the file CRC, advances the index and changes nothing else but the line's state. -/
def Obligations.StartAddressRecordsAreIgnored : Prop :=
  (∀ (r : HexRecord) (s : State) (i : Instr), i = .recSsa r ∨ i = .recSla r →
    exec i s = .next { s with out := returned (.bool true) }) ∧
  (∀ (r : HexRecord) (s : State) (ty : Byte), ty = 3#8 ∨ ty = 5#8 →
    parseLineBuf s.cfg.hexAcceptLower s.ctx.lineBuf = ⟨true, ty, r⟩ →
    finaliseLine s = { s with
      ctx := freshLine { s.ctx with
        fileCrcReg := crcFeed s.ctx.fileCrcReg (lineText s.ctx.lineBuf)
        currentLineIndex := s.ctx.currentLineIndex + 1#16 } })

/-! ### Responses and queries -/

/-- A response hands back its code with the awaited line's index, and sends the eight bytes of its frame; `NONE` sends
none (46_response R300 to R304, 30_encoding R108, R109; the layout and the pair are decision D26, `NONE` D27). -/
def Obligations.ResponsesAreEmitted : Prop :=
  ∀ (s : State),
    exec .rspNone s = .next { s with out := returned (.response .none s.ctx.currentLineIndex) } ∧
    (∀ (i : Instr) (c : ResponseCode) (n : Byte),
      (i = .rspSendLine ∧ c = .sendLine ∧ n = 1#8) ∨
        (i = .rspTransferComplete ∧ c = .transferComplete ∧ n = 2#8) ∨ (i = .rspError ∧ c = .error ∧ n = 3#8) →
      exec i s = .next { s with
        out := { returned (.response c s.ctx.currentLineIndex) with
          sent := some #v[n, s.cfg.respPad, s.cfg.respPad, s.cfg.respPad, s.cfg.respPad, s.cfg.respPad,
            s.cfg.respPad, 0#8] } })

/-- 45_transfer_control R290: the query returns `in_progress` and changes no state; it is 1 in states Receiving and
Completing. -/
def Obligations.InProgressQueryReadsTheFlag : Prop :=
  ∀ (s : State),
    exec .qInProgress s = .next { s with out := returned (.bool s.ctx.inProgress) } ∧
    (Inv s → (s.ctx.inProgress = true ↔
      transferState s.ctx = some .receiving ∨ transferState s.ctx = some .completing))

/-- 45_transfer_control R291: the query returns `complete` and changes no state; it is 1 only in state Complete, where the
file CRC matches the one announced; and it stays 1 until a reset, an abort or a valid Init. -/
def Obligations.CompleteQueryReadsTheFlag : Prop :=
  (∀ (s : State), exec .qComplete s = .next { s with out := returned (.bool s.ctx.complete) } ∧
    (Inv s → (s.ctx.complete = true ↔ transferState s.ctx = some .complete) ∧
      (s.ctx.complete = true → computedFileCrc32 s.ctx = s.ctx.expectedFileCrc32))) ∧
  (∀ (s t : State) (r : Request) (rest : List Request),
    Inv s → s.ctx.complete = true → s.port = r :: rest → step s = .next t →
      t.ctx.complete = true ∨ r.op = .reset ∨ r.op = .abort ∨
        ∃ buf now, r.op = .frame buf now ∧ classify buf = .init ∧ initValid (unpackInitFrame buf) = true)

/-! ### The tick -/

/-- A tick with no transfer under way changes no register and answers `NONE` (45_transfer_control R271); under the
parameter of decision D8 a pending bad Init is reported instead, once (R283). -/
def Obligations.IdleTickIsSilent : Prop :=
  ∀ (now : Word) (s : State), s.ctx.inProgress = false →
    ((s.cfg.idleBadInitReport = false ∨ s.ctx.newInitPending = false ∨ s.ctx.initError = false) →
      exec (.opTick now) s = .next { s with
        now := now
        out := returned (.response .none s.ctx.currentLineIndex) }) ∧
    (s.cfg.idleBadInitReport = true → s.ctx.newInitPending = true → s.ctx.initError = true →
      exec (.opTick now) s = .next { s with
        ctx.newInitPending := false
        ctx.initError := false
        now := now
        out := emitted s.cfg .error s.ctx.currentLineIndex })

/-- More than `T_TRANSFER_MS` after the last validated frame the transfer is aborted, whatever else is pending
(45_transfer_control R272, 60_exceptions R318, R332; the strict, modular comparison is decision D15). -/
def Obligations.InactivityTimeoutAborts : Prop :=
  ∀ (now : Word) (s : State), s.ctx.inProgress = true →
    s.cfg.tTransferMs.toNat < (now.toNat + (2 ^ 32 - s.ctx.lastFrameMs.toNat)) % 2 ^ 32 → ∃ t,
      exec (.opTick now) s = .next t ∧ t.ctx = Context.reset ∧ transferState t.ctx = some .idle ∧
      t.out = { emitted s.cfg .error 0#16 with raised := [.inactivityTimeout] } ∧ OnlyContext now s t

/-- More than `T_SEGMENT_MS`, but not more than `T_TRANSFER_MS`, after the last validated frame, a line that is not ready
is requested again and no register changes (45_transfer_control R273, 60_exceptions R317; decisions D15, D16). -/
def Obligations.SegmentTimeoutAsksAgain : Prop :=
  ∀ (now : Word) (s : State), s.ctx.inProgress = true → ready s.ctx = false →
    s.cfg.tSegmentMs.toNat < (now.toNat + (2 ^ 32 - s.ctx.lastFrameMs.toNat)) % 2 ^ 32 →
    (now.toNat + (2 ^ 32 - s.ctx.lastFrameMs.toNat)) % 2 ^ 32 ≤ s.cfg.tTransferMs.toNat →
      exec (.opTick now) s = .next { s with
        now := now
        out := { emitted s.cfg .sendLine s.ctx.currentLineIndex with raised := [.segmentTimeout] } }

/-- A pending Init frame is reported once, as `SEND_LINE` or `ERROR`, and both flags are cleared; nothing else changes
(45_transfer_control R274; decision D29). -/
def Obligations.PendingInitIsReported : Prop :=
  ∀ (now : Word) (s : State), s.ctx.inProgress = true → transferTimedOut s.cfg now s.ctx = false →
    segmentTimedOut s.cfg now s.ctx = false → s.ctx.newInitPending = true →
      exec (.opTick now) s = .next { s with
        ctx.newInitPending := false
        ctx.initError := false
        now := now
        out := emitted s.cfg (if s.ctx.initError then .error else .sendLine) s.ctx.currentLineIndex }

/-- A ready line that `PARSE_LINE` finds invalid is rejected: no register changes but the line's, which are reset, and the
same line is requested (45_transfer_control R275, R277, 60_exceptions R314; the line reset is decision D14). -/
def Obligations.InvalidLineIsAskedForAgain : Prop :=
  ∀ (now : Word) (s : State), FinalisesAt now s →
    (parseLineBuf s.cfg.hexAcceptLower s.ctx.lineBuf).valid = false →
      exec (.opTick now) s = .next { s with
        ctx := freshLine s.ctx
        now := now
        out := { emitted s.cfg .sendLine s.ctx.currentLineIndex with raised := [.lineParseError] } }

/-- After the EOF line the file CRC decides: equality completes the transfer and changes two flags, a difference resets
everything (45_transfer_control R278, R280; decision D28). -/
def Obligations.FileCrcGateDecides : Prop :=
  ∀ (now : Word) (s : State), s.ctx.inProgress = true → transferTimedOut s.cfg now s.ctx = false →
    segmentTimedOut s.cfg now s.ctx = false → s.ctx.newInitPending = false → ready s.ctx = false →
    s.ctx.eofReceived = true →
    (s.ctx.fileCrcReg ^^^ 0xFFFFFFFF#32 = s.ctx.expectedFileCrc32 →
      exec (.opTick now) s = .next { s with
        ctx.complete := true
        ctx.inProgress := false
        now := now
        out := emitted s.cfg .transferComplete s.ctx.currentLineIndex }) ∧
    (s.ctx.fileCrcReg ^^^ 0xFFFFFFFF#32 ≠ s.ctx.expectedFileCrc32 → ∃ t,
      exec (.opTick now) s = .next t ∧ t.ctx = Context.reset ∧
      t.out = { emitted s.cfg .error 0#16 with raised := [.fileChecksumError] } ∧ OnlyContext now s t)

/-- A tick emits at most one response, no other operation of the host emits any, and a tick that finds nothing applicable
emits nothing and changes nothing (45_transfer_control R281). That the answer carries `current_line_index` is decision D26
(46_response R300), that `NONE` sends no frame D27 (R302; log 18). -/
def Obligations.OneResponseATickAndNoOther : Prop :=
  (∀ (now : Word) (s : State), ∃ (t : State) (c : ResponseCode), exec (.opTick now) s = .next t ∧
    t.out.ret = .response c t.ctx.currentLineIndex ∧
    t.out.sent = if c = .none then none else some (encodeResponse s.cfg.respPad c)) ∧
  (∀ (op : PortOp) (s t : State), (∀ now, op ≠ .tick now) → exec op.instr s = .next t →
    t.out.sent = none ∧ ∀ c n, t.out.ret ≠ .response c n) ∧
  (∀ (now : Word) (s : State), s.ctx.inProgress = true → transferTimedOut s.cfg now s.ctx = false →
    segmentTimedOut s.cfg now s.ctx = false → s.ctx.newInitPending = false → ready s.ctx = false →
    s.ctx.eofReceived = false →
      exec (.opTick now) s = .next { s with
        now := now
        out := returned (.response .none s.ctx.currentLineIndex) })

/-- `ready()` for a legal total (42_segment_reassembly R190, 00_scope R19; the value for -1 is decision D13): exactly the
lowest `segment_total` bits are set. -/
def Obligations.ReadyMeansEveryBitIsSet : Prop :=
  ∀ (s : State), Inv s → (ready s.ctx = true ↔
    s.ctx.segmentTotal ≠ noTotal ∧ s.ctx.segmentsReceived.toNat = 2 ^ s.ctx.segmentTotal.toNat - 1)

/-! ### The CRC engine -/

/-- 40_crc32 R142: a table of 256 entries gives the same byte step: the register shifted by eight, XORed with the entry
at its low byte XORed with the input byte. (The constants are general knowledge, log 4.) -/
def Obligations.CrcStepIsATableLookup : Prop :=
  ∀ (r : Word) (b : Byte), crcStep r b = (r >>> 8) ^^^ crcStep 0#32 (r.setWidth 8 ^^^ b)

/-- `CRC32` returns the CRC-32 of its bytes, the byte steps taken in ascending order from 0xFFFFFFFF and complemented, and
leaves every register alone; `CRC32_UPD` from the reset value returns the same word, and leaves the register at its
complement (40_crc32 R142, R144, R145, R147; log 4, decision D5). -/
def Obligations.OneShotCrcAgreesWithTheRunningOne : Prop :=
  ∀ (buf : List Byte) (s : State),
    exec (.crc32 buf) s = .next { s with out := returned (.word (crc32Of buf)) } ∧
    crc32Of buf = buf.foldl crcStep 0xFFFFFFFF#32 ^^^ 0xFFFFFFFF#32 ∧
    (s.ctx.fileCrcReg = 0xFFFFFFFF#32 →
      exec (.crc32Upd buf) s = .next { s with
        ctx.fileCrcReg := crc32Of buf ^^^ 0xFFFFFFFF#32
        out := returned (.word (crc32Of buf)) })

/-- The concatenation law (40_crc32 R146, which the spec marks as derived): feeding a text in two pieces leaves the state
and the value that feeding it whole leaves: `file_crc_reg` alone is written, with the byte steps of the whole text taken
in ascending order from its old value, and its complement is returned (R142, R145; log 4, decision D5). -/
def Obligations.RunningCrcIgnoresTheCuts : Prop :=
  ∀ (a b : List Byte) (s : State), ∃ t u : State,
    exec (.crc32Upd a) s = .next t ∧ exec (.crc32Upd b) t = .next u ∧ exec (.crc32Upd (a ++ b)) s = .next u ∧
    u = { s with
      ctx.fileCrcReg := crcFeed s.ctx.fileCrcReg (a ++ b)
      out := returned (.word (crcFeed s.ctx.fileCrcReg (a ++ b) ^^^ 0xFFFFFFFF#32)) } ∧
    crcFeed s.ctx.fileCrcReg (a ++ b) = (a ++ b).foldl crcStep s.ctx.fileCrcReg

/-- The running CRC covers the text of every accepted line (10_state R27, 43_hex_line R220; decision D33): if it is the
CRC-32 of the text accepted so far, then after a tick that finalises a line it is the CRC-32 of that text with the line's
text added if the line was accepted, and of the same text if not. -/
def Obligations.FileCrcCoversTheAcceptedText : Prop :=
  ∀ (now : Word) (s : State) (text : List Byte), FinalisesAt now s → computedFileCrc32 s.ctx = crc32Of text → ∃ t,
    exec (.opTick now) s = .next t ∧
    ((t.ctx.currentLineIndex = s.ctx.currentLineIndex + 1#16 ∧
        computedFileCrc32 t.ctx = crc32Of (text ++ lineText s.ctx.lineBuf)) ∨
      (t.ctx.currentLineIndex = s.ctx.currentLineIndex ∧ computedFileCrc32 t.ctx = crc32Of text))

/-! ### The whole machine -/

/-- Every step keeps the invariant of Safety.lean (10_state R22, R25, R28, R29, R30, R41, R50, R55; log 3 and the
decisions named there). -/
def Obligations.EveryStepKeepsTheInvariant : Prop :=
  ∀ (s t : State), Inv s → step s = .next t → Inv t

/-- The state after reset meets the invariant, whatever the parameters and the requests still to come. -/
def Obligations.ResetMeetsTheInvariant : Prop :=
  ∀ (cfg : Config) (port : List Request), Inv { State.reset with cfg := cfg, port := port }

/-- No operation of the host stops the machine in a state that meets the invariant (60_exceptions R324; 20_memory R71: no
write falls outside the line buffer; log 28). -/
def Obligations.NoRequestStopsTheMachine : Prop :=
  ∀ (s : State), Inv s → ∃ t, step s = .next t

/-- 10_state R37: no operation of the block writes the parameters, and reset does not touch them. -/
def Obligations.NoOperationWritesTheParameters : Prop :=
  ∀ (i : Instr) (s t : State), exec i s = .next t → t.cfg = s.cfg

/-- The block never reads STAGE (20_memory section 3): with any other content there an operation ends the same way, and in
a state that differs only there. -/
def Obligations.StageContentIsNeverRead : Prop :=
  ∀ (i : Instr) (s t : State) (m : Memory), exec i s = .next t →
    ∃ n : Memory, exec i { s with stage := m } = .next { t with stage := n }

/-- STAGE is written only by a tick that finalises a line, never while a frame is handled (20_memory R84,
42_segment_reassembly R192). -/
def Obligations.OnlyLineFinalisationWritesStage : Prop :=
  ∀ (s t : State) (a : Nat), step s = .next t → Memory.read t.stage a ≠ Memory.read s.stage a →
    ∃ now reply rest, s.port = ⟨.tick now, reply⟩ :: rest ∧ FinalisesAt now s

/-- `current_line_index` stays, or moves by exactly one when a tick finalises a line, or returns to 0 because every
register returns to its reset value, in an abort or a reset, or before a valid Init frame loads its five registers
(10_state R28, R56, 45_transfer_control R264; the width of the increment is decision D30, the reset values D24, the time
stamp D7). -/
def Obligations.LineIndexAdvancesByOneOrRestarts : Prop :=
  ∀ (s t : State), step s = .next t →
    t.ctx.currentLineIndex = s.ctx.currentLineIndex ∨
    (t.ctx.currentLineIndex = s.ctx.currentLineIndex + 1#16 ∧
      ∃ now reply rest, s.port = ⟨.tick now, reply⟩ :: rest ∧ FinalisesAt now s) ∨
    t.ctx = Context.reset ∨
    (∃ buf now reply rest, s.port = ⟨.frame buf now, reply⟩ :: rest ∧ classify buf = .init ∧
      initValid (unpackInitFrame buf) = true ∧
      t.ctx = { Context.reset with
        inProgress := true
        expectedLines := (unpackInitFrame buf).lineCount
        expectedFileCrc32 := (unpackInitFrame buf).fileCrc32
        newInitPending := true
        lastFrameMs := now })

/-- A transfer becomes complete only through the file-CRC gate: a tick in state Completing whose computed CRC equals the
announced one (10_state R33, R55, 45_transfer_control R280). -/
def Obligations.OnlyTheGateCompletesATransfer : Prop :=
  ∀ (s t : State), step s = .next t → s.ctx.complete = false → t.ctx.complete = true →
    (∃ now reply rest, s.port = ⟨.tick now, reply⟩ :: rest) ∧ s.ctx.inProgress = true ∧ s.ctx.eofReceived = true ∧
      computedFileCrc32 s.ctx = s.ctx.expectedFileCrc32 ∧ t.ctx.inProgress = false ∧
      t.out.ret = .response .transferComplete s.ctx.currentLineIndex

/-- Only two error kinds are terminal (60_exceptions R313): a step that raises one of them resets every register and
answers `ERROR`; one that raises only others keeps the transfer's state flags and the awaited line. -/
def Obligations.OnlyTwoErrorsAreTerminal : Prop :=
  ∀ (s t : State) (r : Request) (rest : List Request) (k : ErrorKind),
    s.port = r :: rest → step s = .next t → k ∈ t.out.raised →
    ((k = .inactivityTimeout ∨ k = .fileChecksumError) → t.ctx = Context.reset ∧ t.out.ret = .response .error 0#16) ∧
    ((k ≠ .inactivityTimeout ∧ k ≠ .fileChecksumError) →
      t.ctx.inProgress = s.ctx.inProgress ∧ t.ctx.complete = s.ctx.complete ∧ t.ctx.eofReceived = s.ctx.eofReceived ∧
      t.ctx.currentLineIndex = s.ctx.currentLineIndex ∧ t.ctx.fileCrcReg = s.ctx.fileCrcReg)

/-! ### Invalid lines -/

/-- The data of an invalid result (43_hex_line R204): `PARSE_LINE` clears the array first, so it holds 0x00 where a check
before the data fails, and otherwise the bytes decoded before the first pair that is not hex, all of them where the line
checksum fails, with 0x00 after them. The other fields of such a result are free values (log 33); that `PARSE_LINE`
carried out alone raises `LineParseError` is the model's choice (log 29). -/
def Obligations.InvalidResultHoldsTheDecodedBytes : Prop :=
  ∀ (s : State), (parseLineBuf s.cfg.hexAcceptLower s.ctx.lineBuf).valid = false → ∃ pl : ParsedLine,
    exec .parseLine s = .next { s with out := { returned (.parsed pl) with raised := [.lineParseError] } } ∧
    pl.valid = false ∧
    (∀ bc, DataReached s.cfg.hexAcceptLower s.ctx.lineBuf bc → ∀ k (h : k < 16), pl.record.data[k] =
      if k < bc.toNat ∧ ∀ j ≤ k, (hex2 s.cfg.hexAcceptLower s.ctx.lineBuf (9 + 2 * j)).isSome then
        (hex2 s.cfg.hexAcceptLower s.ctx.lineBuf (9 + 2 * k)).getD 0#8 else 0#8) ∧
    ((∀ bc, ¬ DataReached s.cfg.hexAcceptLower s.ctx.lineBuf bc) → ∀ k (h : k < 16), pl.record.data[k] = 0#8)
end

