-- ==== Sys2Proof/Laws/Codec.lean ====
section
/-! SUPPORT. The frame codec bit by bit: the word and the bytes of a frame determine each other, and a packed frame holds
its fields (30_encoding R103, 41_frame_codec). -/

namespace Sys2Proof.Machine

/-- Bit `8k + i` of a byte placed at byte position `j`. -/
theorem byteAt_getLsbD (b : Byte) {j k i : Nat} (hj : j < 8) (hk : k < 8) (hi : i < 8) :
    (b.setWidth 64 <<< (8 * j)).getLsbD (8 * k + i) = (decide (k = j) && b.getLsbD i) := by
  simp only [BitVec.getLsbD_shiftLeft, BitVec.getLsbD_setWidth]
  rcases Nat.lt_trichotomy k j with h | rfl | h
  · simp [show 8 * k + i < 8 * j by omega, Nat.ne_of_lt h]
  · simp [show 8 * k + i < 64 by omega, show i < 64 by omega]
  · rw [BitVec.getLsbD_of_ge b _ (by omega)]; simp [Nat.ne_of_gt h]

theorem frameWord_getLsbD (buf : Frame) {k i : Nat} (hk : k < 8) (hi : i < 8) :
    (frameWord buf).getLsbD (8 * k + i) = buf[k].getLsbD i := by
  have h (j : Nat) (hj : j < 8) (b : Byte) := byteAt_getLsbD b hj hk hi
  have e0 : buf[0].setWidth 64 = buf[0].setWidth 64 <<< (8 * 0) := by simp
  unfold frameWord
  rw [e0]
  simp only [BitVec.getLsbD_or, h 0 (by omega), h 1 (by omega), h 2 (by omega), h 3 (by omega), h 4 (by omega),
    h 5 (by omega), h 6 (by omega), h 7 (by omega)]
  interval_cases k <;> simp

/-- Any bit of a frame word is a bit of one byte (30_encoding R103). -/
theorem frameWord_bit (buf : Frame) (i : Nat) (hi : i < 64) :
    (frameWord buf).getLsbD i = buf[i / 8].getLsbD (i % 8) := by
  conv => lhs; rw [← Nat.div_add_mod i 8]
  exact frameWord_getLsbD _ (by omega) (by omega)

theorem wordFrame_get (w : FrameWord) (k : Nat) (hk : k < 8) : (wordFrame w)[k] = w.extractLsb' (8 * k) 8 := by
  interval_cases k <;> rfl

theorem wordFrame_frameWord (buf : Frame) : wordFrame (frameWord buf) = buf := by
  apply Vector.ext
  intro k hk
  rw [wordFrame_get _ _ hk]
  apply BitVec.eq_of_getLsbD_eq
  intro i hi
  rw [BitVec.getLsbD_extractLsb', frameWord_getLsbD _ hk hi]
  simp [hi]

theorem frameWord_wordFrame (w : FrameWord) : frameWord (wordFrame w) = w := by
  apply BitVec.eq_of_getLsbD_eq
  intro i hi
  rw [← Nat.div_add_mod i 8, frameWord_getLsbD _ (by omega) (by omega), wordFrame_get, BitVec.getLsbD_extractLsb']
  simp
  omega

theorem field_getLsbD {n : Nat} (x : BitVec n) (sh i : Nat) (h : i < 64) :
    (x.setWidth 64 <<< sh).getLsbD i = (decide (sh ≤ i) && x.getLsbD (i - sh)) := by
  simp only [BitVec.getLsbD_shiftLeft, BitVec.getLsbD_setWidth, h, decide_true, Bool.true_and]
  rcases Nat.lt_or_ge i sh with h' | h'
  · simp [h', Nat.not_le.mpr h']
  · simp [h', Nat.not_lt.mpr h', show i - sh < 64 by omega]

/-- A field, cut out where it was put in. -/
theorem field_extract {n : Nat} (x : BitVec n) (sh : Nat) (h : sh + n ≤ 64) :
    (x.setWidth 64 <<< sh).extractLsb' sh n = x := by
  apply BitVec.eq_of_getLsbD_eq
  intro i hi
  rw [BitVec.getLsbD_extractLsb', field_getLsbD _ _ _ (by omega)]
  simp [hi]

/-- A field leaves a cut beside it zero. -/
theorem field_extract_other {n : Nat} (x : BitVec n) (sh lo w : Nat) (h : lo + w ≤ 64)
    (hd : lo + w ≤ sh ∨ sh + n ≤ lo) : (x.setWidth 64 <<< sh).extractLsb' lo w = 0#w := by
  apply BitVec.eq_of_getLsbD_eq
  intro i hi
  rw [BitVec.getLsbD_extractLsb', field_getLsbD _ _ _ (by omega)]
  rcases hd with hd | hd
  · simp; omega
  · rw [BitVec.getLsbD_of_ge x _ (by omega)]; simp

theorem extract_or (a b : FrameWord) (lo w : Nat) :
    (a ||| b).extractLsb' lo w = a.extractLsb' lo w ||| b.extractLsb' lo w := by
  apply BitVec.eq_of_getLsbD_eq
  intro i hi
  simp [hi]

theorem one_extract (lo w : Nat) (hl : 1 ≤ lo) : (1#64).extractLsb' lo w = 0#w := by
  apply BitVec.eq_of_getLsbD_eq
  intro i hi
  simp [BitVec.getLsbD_one, hi]
  omega

/-- The fields of a packed Init frame (30_encoding R100). -/
theorem packInit_fields (lc : BitVec 15) (fc : Word) (ic : Half) :
    (frameWord (packInitFrame lc fc ic)).extractLsb' 1 15 = lc ∧
      (frameWord (packInitFrame lc fc ic)).extractLsb' 16 32 = fc ∧
      (frameWord (packInitFrame lc fc ic)).extractLsb' 48 16 = ic ∧
      (frameWord (packInitFrame lc fc ic)).getLsbD 0 = false := by
  have hw : frameWord (packInitFrame lc fc ic) = _ := frameWord_wordFrame _
  rw [hw]
  simp only [extract_or, BitVec.getLsbD_or]
  refine ⟨?_, ?_, ?_, by simp⟩ <;>
  · rw [field_extract _ _ (by omega)]
    iterate 2 rw [field_extract_other _ _ _ _ (by omega) (by omega)]
    simp

/-- The fields of a packed Segment frame (30_encoding R101). -/
theorem packSeg_fields (ln : BitVec 15) (si st : BitVec 4) (p : Vector Byte 5) :
    (frameWord (packSegFrame ln si st p)).extractLsb' 1 15 = ln ∧
      (frameWord (packSegFrame ln si st p)).extractLsb' 16 4 = si ∧
      (frameWord (packSegFrame ln si st p)).extractLsb' 20 4 = st ∧
      segPayload (frameWord (packSegFrame ln si st p)) = p ∧
      (frameWord (packSegFrame ln si st p)).getLsbD 0 = true := by
  have hw : frameWord (packSegFrame ln si st p) = _ := frameWord_wordFrame _
  rw [hw]
  refine ⟨?_, ?_, ?_, ?_, by simp⟩
  · simp only [extract_or]
    rw [one_extract _ _ (by omega), field_extract ln _ (by omega)]
    iterate 7 rw [field_extract_other _ _ _ _ (by omega) (by omega)]
    simp
  · simp only [extract_or]
    rw [one_extract _ _ (by omega), field_extract si _ (by omega),
      field_extract_other ln _ _ _ (by omega) (by omega)]
    iterate 6 rw [field_extract_other _ _ _ _ (by omega) (by omega)]
    simp
  · simp only [extract_or]
    rw [one_extract _ _ (by omega), field_extract st _ (by omega),
      field_extract_other ln _ _ _ (by omega) (by omega), field_extract_other si _ _ _ (by omega) (by omega)]
    iterate 5 rw [field_extract_other _ _ _ _ (by omega) (by omega)]
    simp
  · unfold segPayload
    simp only [extract_or]
    apply Vector.ext
    intro k hk
    interval_cases k <;>
      dsimp only [Vector.getElem_mk, List.getElem_toArray, List.getElem_cons_zero, List.getElem_cons_succ] <;>
      rw [one_extract _ _ (by omega), field_extract_other ln _ _ _ (by omega) (by omega),
        field_extract_other si _ _ _ (by omega) (by omega), field_extract_other st _ _ _ (by omega) (by omega),
        field_extract _ _ (by omega)] <;>
      (iterate 4 rw [field_extract_other _ _ _ _ (by omega) (by omega)]) <;>
      simp

theorem packInit_classify (lc : BitVec 15) (fc : Word) (ic : Half) : classify (packInitFrame lc fc ic) = .init := by
  unfold classify
  rw [(packInit_fields lc fc ic).2.2.2]
  rfl

theorem packSeg_classify (ln : BitVec 15) (si st : BitVec 4) (p : Vector Byte 5) :
    classify (packSegFrame ln si st p) = .segment := by
  unfold classify
  rw [(packSeg_fields ln si st p).2.2.2.2]
  rfl

/-- `OP_FRAME` unpacks from a packed Init frame the operands of `INIT`. -/
theorem unpack_packInit (lc : BitVec 15) (fc : Word) (ic : Half) :
    unpackInitFrame (packInitFrame lc fc ic) = initOperands lc fc ic := by
  obtain ⟨h1, h2, h3, -⟩ := packInit_fields lc fc ic
  simp only [unpackInitFrame, initOperands, h1, h2, h3]

/-- `OP_FRAME` unpacks from a packed Segment frame the operands of `SEG`. -/
theorem unpack_packSeg (ln : BitVec 15) (si st : BitVec 4) (p : Vector Byte 5) :
    unpackSegFrame (packSegFrame ln si st p) = segOperands ln si st p := by
  obtain ⟨h1, h2, h3, h4, -⟩ := packSeg_fields ln si st p
  simp only [unpackSegFrame, segOperands, h1, h2, h3, h4]

theorem frameOfBytes_toList (buf : Frame) : frameOfBytes buf.toList = some buf := by
  obtain ⟨⟨l⟩, h⟩ := buf
  match l, h with
  | [_, _, _, _, _, _, _, _], _ => rfl

end Sys2Proof.Machine
end

