-- ==== Sys2Proof/Laws/Crc.lean ====
section
/-! SUPPORT. The laws of the CRC engine's feed (40_crc32 R142, R145). -/

namespace Sys2Proof.Machine

@[simp] theorem crcFeed_nil (r : Word) : crcFeed r [] = r := rfl

@[simp] theorem crcFeed_cons (r : Word) (b : Byte) (bs : List Byte) :
    crcFeed r (b :: bs) = crcFeed (crcStep r b) bs := rfl

/-- Feeding is a left fold, so a text may be cut anywhere. -/
theorem crcFeed_append (r : Word) (s t : List Byte) : crcFeed r (s ++ t) = crcFeed (crcFeed r s) t := by
  induction s generalizing r with
  | nil => rfl
  | cons b bs ih => exact ih (crcStep r b)

@[simp] theorem computedFileCrc32_reset : computedFileCrc32 Context.reset = 0#32 := by decide

end Sys2Proof.Machine
end

