-- ==== Sys2Proof/Laws/Line.lean ====
section
/-! SUPPORT. What a line holds after bytes are stored in it, and what `lineWrite` can answer. -/

namespace Sys2Proof.Machine

theorem lineStore_get (bytes : List Byte) (addr : Nat) (l : Line) (p : Nat) (hp : p < 45) :
    (lineStore addr bytes l)[p] = if h : addr ≤ p ∧ p < addr + bytes.length then bytes[p - addr]'(by omega) else l[p] := by
  induction bytes generalizing addr l with
  | nil => simp [lineStore]
  | cons b bs ih =>
    rw [lineStore, ih]
    by_cases h1 : p = addr
    · subst h1
      simp
    · by_cases h2 : addr + 1 ≤ p ∧ p < addr + 1 + bs.length
      · rw [dif_pos h2, dif_pos (by simp; omega)]
        have e : p - addr = (p - (addr + 1)) + 1 := by omega
        simp [e]
      · rw [dif_neg h2, dif_neg (by simp; omega)]
        simp [Ne.symm h1]

/-- What `MemWrite(LINE, ..)` can answer: the write inside addresses 0 to 44, and nothing else. -/
theorem State.lineWrite_spec {addr : Nat} {bytes : List Byte} {s t : State} (h : s.lineWrite addr bytes = some t) :
    addr + bytes.length ≤ 45 ∧ t = { s with ctx.lineBuf := lineStore addr bytes s.ctx.lineBuf } := by
  unfold State.lineWrite at h
  split at h
  · exact ⟨‹_›, (Option.some.inj h).symm⟩
  · cases h

theorem lineByte_get (l : Line) (q : Nat) (h : q < 45) : lineByte l q = l[q] := by
  unfold lineByte
  simp [List.getD_eq_getElem?_getD, h]

/-- What a byte of a line reads as after a store inside it. -/
theorem lineByte_store (bytes : List Byte) (addr : Nat) (l : Line) (q : Nat) (hb : addr + bytes.length ≤ 45) :
    lineByte (lineStore addr bytes l) q =
      if h : addr ≤ q ∧ q < addr + bytes.length then bytes[q - addr]'(by omega) else lineByte l q := by
  by_cases hq : q < 45
  · rw [lineByte_get _ _ hq, lineStore_get _ _ _ _ hq, lineByte_get _ _ hq]
  · rw [dif_neg (by omega)]
    unfold lineByte
    rw [List.getD_eq_default _ _ (by simp; omega), List.getD_eq_default _ _ (by simp; omega)]

@[simp] theorem padLine_get (p : Nat) (hp : p < 45) : padLine[p] = padByte := by simp [padLine]

end Sys2Proof.Machine
end

