-- ==== Sys2Proof/Laws/State.lean ====
section
/-! SUPPORT. One lemma per field per update of the state, so that no later proof unfolds a record update. -/

namespace Sys2Proof.Machine

@[simp] theorem State.clearOutputs_ctx (s : State) : s.clearOutputs.ctx = s.ctx := rfl
@[simp] theorem State.clearOutputs_stage (s : State) : s.clearOutputs.stage = s.stage := rfl
@[simp] theorem State.clearOutputs_cfg (s : State) : s.clearOutputs.cfg = s.cfg := rfl
@[simp] theorem State.clearOutputs_port (s : State) : s.clearOutputs.port = s.port := rfl
@[simp] theorem State.clearOutputs_now (s : State) : s.clearOutputs.now = s.now := rfl
@[simp] theorem State.clearOutputs_flashReply (s : State) : s.clearOutputs.flashReply = s.flashReply := rfl
@[simp] theorem State.clearOutputs_freeCount (s : State) : s.clearOutputs.freeCount = s.freeCount := rfl
@[simp] theorem State.clearOutputs_out (s : State) : s.clearOutputs.out = Outputs.empty := rfl

@[simp] theorem State.setRet_ctx (v : Ret) (s : State) : (s.setRet v).ctx = s.ctx := rfl
@[simp] theorem State.setRet_stage (v : Ret) (s : State) : (s.setRet v).stage = s.stage := rfl
@[simp] theorem State.setRet_cfg (v : Ret) (s : State) : (s.setRet v).cfg = s.cfg := rfl
@[simp] theorem State.setRet_port (v : Ret) (s : State) : (s.setRet v).port = s.port := rfl
@[simp] theorem State.setRet_now (v : Ret) (s : State) : (s.setRet v).now = s.now := rfl
@[simp] theorem State.setRet_flashReply (v : Ret) (s : State) : (s.setRet v).flashReply = s.flashReply := rfl
@[simp] theorem State.setRet_freeCount (v : Ret) (s : State) : (s.setRet v).freeCount = s.freeCount := rfl
@[simp] theorem State.setRet_out (v : Ret) (s : State) : (s.setRet v).out = { s.out with ret := v } := rfl

@[simp] theorem State.raise_ctx (k : ErrorKind) (s : State) : (s.raise k).ctx = s.ctx := rfl
@[simp] theorem State.raise_stage (k : ErrorKind) (s : State) : (s.raise k).stage = s.stage := rfl
@[simp] theorem State.raise_cfg (k : ErrorKind) (s : State) : (s.raise k).cfg = s.cfg := rfl
@[simp] theorem State.raise_port (k : ErrorKind) (s : State) : (s.raise k).port = s.port := rfl
@[simp] theorem State.raise_now (k : ErrorKind) (s : State) : (s.raise k).now = s.now := rfl
@[simp] theorem State.raise_flashReply (k : ErrorKind) (s : State) : (s.raise k).flashReply = s.flashReply := rfl
@[simp] theorem State.raise_freeCount (k : ErrorKind) (s : State) : (s.raise k).freeCount = s.freeCount := rfl
@[simp] theorem State.raise_out (k : ErrorKind) (s : State) :
    (s.raise k).out = { s.out with raised := s.out.raised ++ [k] } := rfl

@[simp] theorem State.emit_ctx (c : ResponseCode) (s : State) : (s.emit c).ctx = s.ctx := rfl
@[simp] theorem State.emit_stage (c : ResponseCode) (s : State) : (s.emit c).stage = s.stage := rfl
@[simp] theorem State.emit_cfg (c : ResponseCode) (s : State) : (s.emit c).cfg = s.cfg := rfl
@[simp] theorem State.emit_port (c : ResponseCode) (s : State) : (s.emit c).port = s.port := rfl
@[simp] theorem State.emit_now (c : ResponseCode) (s : State) : (s.emit c).now = s.now := rfl
@[simp] theorem State.emit_flashReply (c : ResponseCode) (s : State) : (s.emit c).flashReply = s.flashReply := rfl
@[simp] theorem State.emit_freeCount (c : ResponseCode) (s : State) : (s.emit c).freeCount = s.freeCount := rfl
@[simp] theorem State.emit_out (c : ResponseCode) (s : State) :
    (s.emit c).out = { s.out with
      ret := .response c s.ctx.currentLineIndex
      sent := if c = .none then none else some (encodeResponse s.cfg.respPad c) } := rfl

@[simp] theorem State.resetRegisters_ctx (s : State) : s.resetRegisters.ctx = Context.reset := rfl
@[simp] theorem State.resetRegisters_stage (s : State) : s.resetRegisters.stage = s.stage := rfl
@[simp] theorem State.resetRegisters_cfg (s : State) : s.resetRegisters.cfg = s.cfg := rfl
@[simp] theorem State.resetRegisters_port (s : State) : s.resetRegisters.port = s.port := rfl
@[simp] theorem State.resetRegisters_now (s : State) : s.resetRegisters.now = s.now := rfl
@[simp] theorem State.resetRegisters_flashReply (s : State) : s.resetRegisters.flashReply = s.flashReply := rfl
@[simp] theorem State.resetRegisters_freeCount (s : State) : s.resetRegisters.freeCount = s.freeCount := rfl
@[simp] theorem State.resetRegisters_out (s : State) : s.resetRegisters.out = s.out := rfl

@[simp] theorem State.lineReset_ctx (s : State) :
    s.lineReset.ctx = { s.ctx with segmentTotal := noTotal, segmentsReceived := 0#9, lineBuf := padLine } := rfl
@[simp] theorem State.lineReset_stage (s : State) : s.lineReset.stage = s.stage := rfl
@[simp] theorem State.lineReset_cfg (s : State) : s.lineReset.cfg = s.cfg := rfl
@[simp] theorem State.lineReset_port (s : State) : s.lineReset.port = s.port := rfl
@[simp] theorem State.lineReset_now (s : State) : s.lineReset.now = s.now := rfl
@[simp] theorem State.lineReset_flashReply (s : State) : s.lineReset.flashReply = s.flashReply := rfl
@[simp] theorem State.lineReset_freeCount (s : State) : s.lineReset.freeCount = s.freeCount := rfl
@[simp] theorem State.lineReset_out (s : State) : s.lineReset.out = s.out := rfl

@[simp] theorem State.feedFileCrc_ctx (bs : List Byte) (s : State) :
    (s.feedFileCrc bs).ctx = { s.ctx with fileCrcReg := crcFeed s.ctx.fileCrcReg bs } := rfl
@[simp] theorem State.feedFileCrc_stage (bs : List Byte) (s : State) : (s.feedFileCrc bs).stage = s.stage := rfl
@[simp] theorem State.feedFileCrc_cfg (bs : List Byte) (s : State) : (s.feedFileCrc bs).cfg = s.cfg := rfl
@[simp] theorem State.feedFileCrc_port (bs : List Byte) (s : State) : (s.feedFileCrc bs).port = s.port := rfl
@[simp] theorem State.feedFileCrc_now (bs : List Byte) (s : State) : (s.feedFileCrc bs).now = s.now := rfl
@[simp] theorem State.feedFileCrc_flashReply (bs : List Byte) (s : State) :
    (s.feedFileCrc bs).flashReply = s.flashReply := rfl
@[simp] theorem State.feedFileCrc_freeCount (bs : List Byte) (s : State) :
    (s.feedFileCrc bs).freeCount = s.freeCount := rfl
@[simp] theorem State.feedFileCrc_out (bs : List Byte) (s : State) : (s.feedFileCrc bs).out = s.out := rfl

@[simp] theorem State.updateBounds_ctx (a : Word) (e : Nat) (s : State) :
    (s.updateBounds a e).ctx = { s.ctx with
      minAddress := minWord s.ctx.minAddress a
      maxAddress := maxWord s.ctx.maxAddress (BitVec.ofNat 32 e) } := rfl
@[simp] theorem State.updateBounds_stage (a : Word) (e : Nat) (s : State) :
    (s.updateBounds a e).stage = s.stage := rfl
@[simp] theorem State.updateBounds_cfg (a : Word) (e : Nat) (s : State) : (s.updateBounds a e).cfg = s.cfg := rfl
@[simp] theorem State.updateBounds_port (a : Word) (e : Nat) (s : State) :
    (s.updateBounds a e).port = s.port := rfl
@[simp] theorem State.updateBounds_now (a : Word) (e : Nat) (s : State) : (s.updateBounds a e).now = s.now := rfl
@[simp] theorem State.updateBounds_flashReply (a : Word) (e : Nat) (s : State) :
    (s.updateBounds a e).flashReply = s.flashReply := rfl
@[simp] theorem State.updateBounds_freeCount (a : Word) (e : Nat) (s : State) :
    (s.updateBounds a e).freeCount = s.freeCount := rfl
@[simp] theorem State.updateBounds_out (a : Word) (e : Nat) (s : State) : (s.updateBounds a e).out = s.out := rfl

@[simp] theorem State.ramCopy_ctx (w : Word) (bs : List Byte) (s : State) : (s.ramCopy w bs).ctx = s.ctx := rfl
@[simp] theorem State.ramCopy_stage (w : Word) (bs : List Byte) (s : State) :
    (s.ramCopy w bs).stage = Memory.writeBytes s.stage w bs := rfl
@[simp] theorem State.ramCopy_cfg (w : Word) (bs : List Byte) (s : State) : (s.ramCopy w bs).cfg = s.cfg := rfl
@[simp] theorem State.ramCopy_port (w : Word) (bs : List Byte) (s : State) : (s.ramCopy w bs).port = s.port := rfl
@[simp] theorem State.ramCopy_now (w : Word) (bs : List Byte) (s : State) : (s.ramCopy w bs).now = s.now := rfl
@[simp] theorem State.ramCopy_flashReply (w : Word) (bs : List Byte) (s : State) :
    (s.ramCopy w bs).flashReply = s.flashReply := rfl
@[simp] theorem State.ramCopy_freeCount (w : Word) (bs : List Byte) (s : State) :
    (s.ramCopy w bs).freeCount = s.freeCount := rfl
@[simp] theorem State.ramCopy_out (w : Word) (bs : List Byte) (s : State) : (s.ramCopy w bs).out = s.out := rfl

@[simp] theorem State.flashWriteBlock_ctx (w : Word) (bs : List Byte) (s : State) :
    (s.flashWriteBlock w bs).ctx = s.ctx := by
  unfold State.flashWriteBlock; split <;> rfl
@[simp] theorem State.flashWriteBlock_cfg (w : Word) (bs : List Byte) (s : State) :
    (s.flashWriteBlock w bs).cfg = s.cfg := by
  unfold State.flashWriteBlock; split <;> rfl
@[simp] theorem State.flashWriteBlock_port (w : Word) (bs : List Byte) (s : State) :
    (s.flashWriteBlock w bs).port = s.port := by
  unfold State.flashWriteBlock; split <;> rfl
@[simp] theorem State.flashWriteBlock_now (w : Word) (bs : List Byte) (s : State) :
    (s.flashWriteBlock w bs).now = s.now := by
  unfold State.flashWriteBlock; split <;> rfl
@[simp] theorem State.flashWriteBlock_flashReply (w : Word) (bs : List Byte) (s : State) :
    (s.flashWriteBlock w bs).flashReply = s.flashReply := by
  unfold State.flashWriteBlock; split <;> rfl
@[simp] theorem State.flashWriteBlock_out (w : Word) (bs : List Byte) (s : State) :
    (s.flashWriteBlock w bs).out = { s.out with flashCall := some ⟨w, bs⟩ } := by
  unfold State.flashWriteBlock; split <;> rfl

/-- What a call of the flash primitive can do to STAGE and to the count of free values. -/
theorem State.flashWriteBlock_ok (w : Word) (bs : List Byte) (s : State) (h : s.flashReply = 0) :
    (s.flashWriteBlock w bs).stage = Memory.writeBytes s.stage w bs ∧
      (s.flashWriteBlock w bs).freeCount = s.freeCount := by
  simp [State.flashWriteBlock, h]

theorem State.flashWriteBlock_failed (w : Word) (bs : List Byte) (s : State) (h : s.flashReply ≠ 0) :
    (s.flashWriteBlock w bs).stage = Memory.writeBytes s.stage w (failedFlashBytes s.freeCount bs.length) ∧
      (s.flashWriteBlock w bs).freeCount = s.freeCount + bs.length := by
  simp [State.flashWriteBlock, h]

@[simp] theorem failedFlashBytes_length (k n : Nat) : (failedFlashBytes k n).length = n := by
  simp [failedFlashBytes]

@[simp] theorem State.terminalError_ctx (k : ErrorKind) (s : State) : (s.terminalError k).ctx = Context.reset := rfl
@[simp] theorem State.terminalError_stage (k : ErrorKind) (s : State) : (s.terminalError k).stage = s.stage := rfl
@[simp] theorem State.terminalError_cfg (k : ErrorKind) (s : State) : (s.terminalError k).cfg = s.cfg := rfl
@[simp] theorem State.terminalError_port (k : ErrorKind) (s : State) : (s.terminalError k).port = s.port := rfl
@[simp] theorem State.terminalError_now (k : ErrorKind) (s : State) : (s.terminalError k).now = s.now := rfl
@[simp] theorem State.terminalError_flashReply (k : ErrorKind) (s : State) : (s.terminalError k).flashReply = s.flashReply := rfl
@[simp] theorem State.terminalError_freeCount (k : ErrorKind) (s : State) : (s.terminalError k).freeCount = s.freeCount := rfl
end Sys2Proof.Machine
end

