-- ==== Sys2Proof/Laws/Frames.lean ====
section
/-! SUPPORT. What processing a frame can do, said once. -/

namespace Sys2Proof.Machine

/-- The two things acceptance rule 2 can do to a frame it lets pass (42_segment_reassembly R183). -/
theorem adoptTotal_spec {m : SegFields} {s t : State} (h : adoptTotal m s = some t) :
    (s.ctx.segmentTotal = noTotal ∧ 1#8 ≤ m.segmentTotal ∧ m.segmentTotal ≤ 9#8 ∧
      t = { s with ctx.segmentTotal := m.segmentTotal, ctx.segmentsReceived := 0#9 }) ∨
    (s.ctx.segmentTotal ≠ noTotal ∧ m.segmentTotal = s.ctx.segmentTotal ∧ t = s) := by
  unfold adoptTotal at h
  split at h
  · split at h
    · cases h
    · rename_i h1 h2
      refine .inl ⟨h1, ?_, ?_, (Option.some.inj h).symm⟩ <;> simp only [not_or, BitVec.not_lt] at h2
      · exact h2.1
      · exact h2.2
  · split at h
    · cases h
    · rename_i h1 h2
      exact .inr ⟨h1, by simpa using h2, (Option.some.inj h).symm⟩

/-- The state an accepted Segment frame leaves (42_segment_reassembly R185, R186). -/
def segmentStored (m : SegFields) (s : State) : State :=
  { s with
    ctx.lineBuf := lineStore (slotAddress m.segmentIndex) m.payload.toList s.ctx.lineBuf
    ctx.segmentsReceived := s.ctx.segmentsReceived ||| 1#9 <<< m.segmentIndex.toNat
    ctx.lastFrameMs := s.now }

theorem storeSegment_next {m : SegFields} {s t : State} (h : storeSegment m s = .next t) :
    slotAddress m.segmentIndex + 5 ≤ 45 ∧ t = segmentStored m s := by
  unfold storeSegment at h
  split at h
  · cases h
  · rename_i u hu
    obtain ⟨h1, rfl⟩ := State.lineWrite_spec hu
    simp at h1
    cases h
    exact ⟨by omega, rfl⟩

theorem storeSegment_of_slot {m : SegFields} {s : State} (h : slotAddress m.segmentIndex + 5 ≤ 45) :
    storeSegment m s = .next (segmentStored m s) := by
  have h' : slotAddress m.segmentIndex ≤ 40 := by omega
  simp [storeSegment, State.lineWrite, h', segmentStored]

/-- What a Segment frame can do: be ignored while idle, be dropped by an acceptance rule (after rule 2, with the total
adopted), or be stored (42_segment_reassembly R180). -/
theorem processSegment_next {m : SegFields} {s t : State} (h : processSegment m s = .next t) :
    (s.ctx.inProgress = false ∧ t = s) ∨
    (s.ctx.inProgress = true ∧ t = s.raise .segmentMismatch) ∨
    (s.ctx.inProgress = true ∧ m.lineNum = s.ctx.currentLineIndex ∧
      ∃ u, adoptTotal m s = some u ∧ u.ctx.segmentTotal ≤ m.segmentIndex ∧ t = u.raise .segmentMismatch) ∨
    (s.ctx.inProgress = true ∧ m.lineNum = s.ctx.currentLineIndex ∧
      ∃ u, adoptTotal m s = some u ∧ m.segmentIndex < u.ctx.segmentTotal ∧
        slotAddress m.segmentIndex + 5 ≤ 45 ∧ t = segmentStored m u) := by
  unfold processSegment dropSegment at h
  split at h
  · cases h; exact .inl ⟨‹_›, rfl⟩
  · rename_i h0
    simp only [Bool.not_eq_false] at h0
    split at h
    · cases h; exact .inr (.inl ⟨h0, rfl⟩)
    · rename_i h1
      simp only [ne_eq, not_not] at h1
      split at h
      · cases h; exact .inr (.inl ⟨h0, rfl⟩)
      · rename_i u hu
        split at h
        · cases h; exact .inr (.inr (.inl ⟨h0, h1, u, hu, ‹_›, rfl⟩))
        · rename_i h2
          obtain ⟨h3, rfl⟩ := storeSegment_next h
          exact .inr (.inr (.inr ⟨h0, h1, u, hu, by simpa using h2, h3, rfl⟩))

/-- A Segment frame whose total is at most 9 stops nowhere (20_memory R71). -/
theorem processSegment_completes {m : SegFields} {s : State}
    (h : s.ctx.segmentTotal = noTotal ∨ s.ctx.segmentTotal ≤ 9#8) : ∃ t, processSegment m s = .next t := by
  unfold processSegment dropSegment
  split
  · exact ⟨_, rfl⟩
  · split
    · exact ⟨_, rfl⟩
    · split
      · exact ⟨_, rfl⟩
      · rename_i u hu
        split
        · exact ⟨_, rfl⟩
        · rename_i h2
          refine ⟨_, storeSegment_of_slot ?_⟩
          have h9 : u.ctx.segmentTotal ≤ 9#8 := by
            rcases adoptTotal_spec hu with ⟨-, -, h9, rfl⟩ | ⟨hn, -, rfl⟩
            · exact h9
            · rcases h with h | h
              · exact absurd h hn
              · exact h
          simp only [slotAddress]
          bv_omega

/-- Setting the bit of a segment leaves the other bits (42_segment_reassembly R185). -/
theorem markSegment_getLsbD (v : BitVec 9) (i j : Nat) (hi : i < 9) :
    (v ||| 1#9 <<< i).getLsbD j = (decide (j = i) || v.getLsbD j) := by
  by_cases hj : j < 9
  · simp [hj]
    by_cases h : j = i
    · subst h; simp
    · by_cases h' : j < i
      · simp [h, h']
      · simp [h, h']; omega
  · rw [BitVec.getLsbD_of_ge _ _ (by omega), BitVec.getLsbD_of_ge v _ (by omega)]
    simp
    omega

theorem nibble_toNat (a : BitVec 4) : (a.setWidth 8 : Byte).toNat = a.toNat := by
  simp
  omega

/-- A Segment frame that passes the four acceptance rules is stored, with its total adopted if none was
(42_segment_reassembly R180, R183, R185). -/
theorem processSegment_accepted {m : SegFields} {s : State} (h1 : s.ctx.inProgress = true)
    (h2 : m.lineNum = s.ctx.currentLineIndex) (h3 : 1#8 ≤ m.segmentTotal) (h4 : m.segmentTotal ≤ 9#8)
    (h5 : s.ctx.segmentTotal = noTotal ∨ s.ctx.segmentTotal = m.segmentTotal) (h6 : m.segmentIndex < m.segmentTotal) :
    processSegment m s = .next (segmentStored m { s with
      ctx.segmentTotal := m.segmentTotal
      ctx.segmentsReceived := if s.ctx.segmentTotal = noTotal then 0#9 else s.ctx.segmentsReceived }) := by
  have had : adoptTotal m s = some { s with
      ctx.segmentTotal := m.segmentTotal
      ctx.segmentsReceived := if s.ctx.segmentTotal = noTotal then 0#9 else s.ctx.segmentsReceived } := by
    unfold adoptTotal
    by_cases hn : s.ctx.segmentTotal = noTotal
    · rw [if_pos hn, if_neg (by simp only [not_or, BitVec.not_lt]; exact ⟨h3, h4⟩)]
      simp only [hn, if_true]
    · have h5' := h5.resolve_left hn
      rw [if_neg hn, if_neg (by simp [h5'])]
      simp only [hn, if_false, ← h5']
  unfold processSegment
  rw [if_neg (by simp [h1]), if_neg (by simp [h2]), had]
  dsimp only
  rw [if_neg (by rw [BitVec.not_le]; exact h6)]
  exact storeSegment_of_slot (by simp only [slotAddress]; bv_omega)

/-- The two things an Init frame can do (45_transfer_control R264, R265). -/
theorem processInit_cases (m : InitFields) (s : State) :
    (initValid m = true ∧ processInit m s = initAccept m s) ∨
    (initValid m = false ∧ processInit m s = initReject s) := by
  unfold processInit
  cases initValid m <;> simp

end Sys2Proof.Machine
end

