-- ==== Sys2Proof/Laws/Hex.lean ====
section
/-! SUPPORT. Hex text: what the digits, the pairs and the whole text of a record decode to, and what a valid parse says
(30_encoding R110, R111, 43_hex_line). -/

namespace Sys2Proof.Machine

/-- A hex digit is below 16, and its upper-case form is its digit (30_encoding R111). -/
theorem nibble_some {lower : Bool} {c n : Byte} (h : nibble lower c = some n) :
    n < 16#8 ∧ foldCase lower c = hexDigit n := by
  unfold nibble at h
  unfold foldCase hexDigit
  split at h
  · cases h; rw [if_neg (by bv_omega), if_pos (by bv_omega)]; constructor <;> bv_omega
  · split at h
    · cases h; rw [if_neg (by bv_omega), if_neg (by bv_omega)]; constructor <;> bv_omega
    · split at h
      · cases h; rw [if_pos ‹_›, if_neg (by bv_omega)]; constructor <;> bv_omega
      · cases h

theorem nibble_of_fold {lower : Bool} {c n : Byte} (hn : n < 16#8) (h : foldCase lower c = hexDigit n) :
    nibble lower c = some n := by
  unfold foldCase hexDigit at h
  unfold nibble
  split at h <;> split at h
  · bv_omega
  · rw [if_neg (by bv_omega), if_neg (by bv_omega), if_pos ‹_›]; congr 1; bv_omega
  · subst h; rw [if_pos (by bv_omega)]; congr 1; bv_omega
  · subst h; rw [if_neg (by bv_omega), if_pos (by bv_omega)]; congr 1; bv_omega

/-- Two characters decode to a byte exactly when their upper-case forms are its two digits. -/
theorem parseHex2_iff (lower : Bool) (c1 c0 b : Byte) :
    parseHex2 lower c1 c0 = some b ↔
      foldCase lower c1 = hexDigit (b >>> 4) ∧ foldCase lower c0 = hexDigit (b &&& 0x0F#8) := by
  have e1 : (b >>> 4).toNat = b.toNat / 16 := by simp [Nat.shiftRight_eq_div_pow]
  have e0 : (b &&& 0x0F#8).toNat = b.toNat % 16 := by
    rw [BitVec.toNat_and]; exact Nat.and_two_pow_sub_one_eq_mod b.toNat 4
  have l1 : b >>> 4 < 16#8 := by rw [BitVec.lt_def, e1]; have := b.isLt; simp; omega
  have l0 : b &&& 0x0F#8 < 16#8 := by rw [BitVec.lt_def, e0]; simp; omega
  constructor
  · intro h
    unfold parseHex2 at h
    split at h
    · rename_i hi lo h1 h0
      obtain ⟨a1, b1⟩ := nibble_some h1
      obtain ⟨a0, b0⟩ := nibble_some h0
      cases h
      rw [b1, b0]
      constructor <;> congr 1
      · apply BitVec.eq_of_toNat_eq; rw [e1]; bv_omega
      · apply BitVec.eq_of_toNat_eq; rw [e0]; bv_omega
    · cases h
  · rintro ⟨h1, h0⟩
    unfold parseHex2
    rw [nibble_of_fold l1 h1, nibble_of_fold l0 h0]
    simp only
    congr 1
    apply BitVec.eq_of_toNat_eq
    rw [BitVec.toNat_add, BitVec.toNat_mul, e1, e0]
    have := b.isLt
    simp; omega

theorem fold_colon (lower : Bool) (c : Byte) : foldCase lower c = 0x3A#8 ↔ c = 0x3A#8 := by
  unfold foldCase
  split
  · constructor <;> intro h <;> bv_omega
  · rfl

theorem hexText_length (bs : List Byte) : (hexText bs).length = 2 * bs.length := by
  induction bs with
  | nil => rfl
  | cons b bs ih => simp [hexText, ih]; omega

/-- A text that folds to hex text, two characters at a time. -/
theorem map_fold_hexText (lower : Bool) (bs : List Byte) (t : List Byte) :
    t.map (foldCase lower) = hexText bs ↔
      t.length = 2 * bs.length ∧ ∀ k (h : k < bs.length),
        parseHex2 lower (t.getD (2 * k) padByte) (t.getD (2 * k + 1) padByte) = some bs[k] := by
  induction bs generalizing t with
  | nil => simp [hexText]
  | cons b bs ih =>
    match t with
    | [] => simp [hexText]
    | [x] => simp [hexText]; omega
    | x :: y :: t =>
      have hd := parseHex2_iff lower x y b
      simp only [hexText, List.map_cons, List.cons.injEq, ih t, List.length_cons]
      constructor
      · rintro ⟨h1, h0, hl, h⟩
        refine ⟨by omega, ?_⟩
        intro k hk
        cases k with
        | zero => simpa using hd.mpr ⟨h1, h0⟩
        | succ k => simpa [Nat.mul_add] using h k (by omega)
      · rintro ⟨hl, h⟩
        have := hd.mp (by simpa using h 0 (by omega))
        refine ⟨this.1, this.2, by omega, ?_⟩
        intro k hk
        have := h (k + 1) (by simp; omega)
        simp only [List.getElem_cons_succ] at this
        simpa [Nat.mul_add] using this

theorem lineText_length (l : Line) : (lineText l).length = effectiveLength l := by
  unfold lineText effectiveLength
  have : l.toList.findIdx (· = padByte) ≤ l.toList.length := List.findIdx_le_length
  simpa using this

theorem lineText_getD (l : Line) (p : Nat) (h : p < effectiveLength l) :
    (lineText l).getD p padByte = lineByte l p := by
  unfold lineText lineByte
  simp [List.getD_eq_getElem?_getD, h]

theorem effectiveLength_le (l : Line) : effectiveLength l ≤ 45 := by
  have : l.toList.findIdx (· = padByte) ≤ l.toList.length := List.findIdx_le_length
  simpa [effectiveLength] using this

/-- A line's text folds to a colon and the hex text of some bytes exactly when its length, its first character and its pairs say so. -/
theorem lineText_hex (lower : Bool) (l : Line) (bs : List Byte) :
    (lineText l).map (foldCase lower) = 0x3A#8 :: hexText bs ↔
      effectiveLength l = 1 + 2 * bs.length ∧ lineByte l 0 = 0x3A#8 ∧
        ∀ k (h : k < bs.length), hex2 lower l (1 + 2 * k) = some bs[k] := by
  rw [← lineText_length]
  rcases ht : lineText l with _ | ⟨c, t⟩
  · simp; intro h; omega
  · have g (p : Nat) (h : p < t.length + 1) : (c :: t).getD p padByte = lineByte l p := by
      rw [← ht]; apply lineText_getD; rw [← lineText_length, ht]; simpa using h
    simp only [List.map_cons, List.cons.injEq, fold_colon, map_fold_hexText, List.length_cons]
    have g0 := g 0 (by omega)
    simp at g0
    rw [← g0]
    have gg : t.length = 2 * bs.length → ∀ k < bs.length,
        hex2 lower l (1 + 2 * k) = parseHex2 lower (t.getD (2 * k) padByte) (t.getD (2 * k + 1) padByte) := by
      intro hl k hk
      unfold hex2
      rw [← g (1 + 2 * k) (by omega), ← g (1 + 2 * k + 1) (by omega),
        Nat.add_comm 1 (2 * k), List.getD_cons_succ, List.getD_cons_succ]
    constructor
    · rintro ⟨h1, h2, h3⟩
      exact ⟨by omega, h1, fun k hk => by rw [gg h2 k hk]; exact h3 k hk⟩
    · rintro ⟨h1, h2, h3⟩
      have hl : t.length = 2 * bs.length := by omega
      exact ⟨h2, hl, fun k hk => by rw [← gg hl k hk]; exact h3 k hk⟩

/-- What the data bytes of a line are (43_hex_line R211). -/
theorem hexData_iff (lower : Bool) (l : Line) (n p : Nat) (ds : List Byte) :
    hexData lower l p n = some ds ↔ ds.length = n ∧ ∀ k (h : k < ds.length), hex2 lower l (p + 2 * k) = some ds[k] := by
  induction n generalizing p ds with
  | zero => 
    simp only [hexData, Option.some.injEq]
    constructor
    · rintro rfl; simp
    · rintro ⟨h, -⟩; exact (List.length_eq_zero_iff.mp h).symm
  | succ n ih =>
    simp only [hexData]
    cases ds with
    | nil => 
      constructor
      · intro h; split at h
        · cases h
        · split at h <;> cases h
      · rintro ⟨h, -⟩; simp at h
    | cons d ds =>
      constructor
      · intro h
        split at h
        · cases h
        · rename_i x hx
          split at h
          · cases h
          · rename_i xs hxs
            cases h
            obtain ⟨h1, h2⟩ := (ih _ _).mp hxs
            refine ⟨by simp [h1], ?_⟩
            intro k hk
            cases k with
            | zero => simpa using hx
            | succ k => have := h2 k (by simpa using hk); rw [show p + 2 * (k + 1) = p + 2 + 2 * k by omega]; simpa using this
      · rintro ⟨h1, h2⟩
        have a := h2 0 (by simp)
        simp at a
        rw [a]
        have b := (ih (p + 2) ds).mpr ⟨by simpa using h1, fun k hk => by
          have := h2 (k + 1) (by simpa using hk)
          rw [show p + 2 + 2 * k = p + 2 * (k + 1) by omega]; simpa using this⟩
        rw [b]

theorem foldl_add (l : List Byte) (a : Byte) : l.foldl (· + ·) a = a + byteSum l := by
  induction l generalizing a with
  | nil => simp [byteSum]
  | cons b l ih => simp only [List.foldl_cons, ih, byteSum, BitVec.add_assoc]

/-- The unused data bytes are 0x00 (43_hex_line R215). -/
theorem dataArray_take (r : HexRecord) (h : tailZero r = true) :
    dataArray (r.data.toList.take r.byteCount.toNat) = r.data := by
  apply Vector.ext; intro k hk
  unfold dataArray
  simp [List.getElem_append, List.getElem_take]
  split
  · rfl
  · unfold tailZero at h
    rw [List.all_eq_true] at h
    have := h r.data[k] (by
      rw [List.mem_drop_iff_getElem]
      exact ⟨k - r.byteCount.toNat, by simp; omega, by simp [show r.byteCount.toNat + (k - r.byteCount.toNat) = k by omega]⟩)
    rw [of_decide_eq_true this]
    have z : ∀ j (h : j < 16), ([0#8, 0#8, 0#8, 0#8, 0#8, 0#8, 0#8, 0#8, 0#8, 0#8, 0#8, 0#8, 0#8, 0#8, 0#8, 0#8] : List Byte)[j] = 0#8 := by decide
    exact z _ _

theorem address_join (a : Half) : a.extractLsb' 8 8 ++ a.extractLsb' 0 8 = a := by
  apply BitVec.eq_of_getLsbD_eq; intro i hi
  simp only [BitVec.getLsbD_append, BitVec.getLsbD_extractLsb']
  by_cases h : i < 8
  · simp [h]
  · simp [h, show i - 8 < 8 by omega, show 8 + (i - 8) = i by omega]


theorem dataArray_toList (ds : List Byte) (h : ds.length ≤ 16) :
    (dataArray ds).toList = ds ++ List.replicate (16 - ds.length) 0#8 := by
  show (ds ++ List.replicate 16 0#8).take 16 = _
  rw [List.take_append, List.take_of_length_le h, List.take_replicate, Nat.min_eq_left (by omega)]

/-- A property of the decoded bytes of a record, byte by byte (30_encoding R110). -/
theorem record_getElems (ty : Byte) (r : HexRecord) (P : Nat → Byte → Prop) (hb : r.byteCount ≤ 16#8) :
    (∀ k (h : k < (recordBytes ty r).length), P k (recordBytes ty r)[k]) ↔
      P 0 r.byteCount ∧ P 1 (r.address.extractLsb' 8 8) ∧ P 2 (r.address.extractLsb' 0 8) ∧ P 3 ty ∧
      (∀ k (h : k < (r.data.toList.take r.byteCount.toNat).length),
        P (4 + k) (r.data.toList.take r.byteCount.toNat)[k]) ∧
      P (4 + r.byteCount.toNat) r.checksum := by
  have hl : (r.data.toList.take r.byteCount.toNat).length = r.byteCount.toNat := by
    simp; simpa [BitVec.le_def] using hb
  unfold recordBytes
  generalize r.data.toList.take r.byteCount.toNat = ds at *
  constructor
  · intro h
    refine ⟨h 0 (by simp), h 1 (by simp), h 2 (by simp), h 3 (by simp), ?_, ?_⟩
    · intro k hk
      have := h (k + 4) (by simp; omega)
      rw [Nat.add_comm]
      simpa [List.getElem_append, hk] using this
    · have := h (r.byteCount.toNat + 4) (by simp; omega)
      rw [Nat.add_comm]
      simpa [List.getElem_append, hl] using this
  · rintro ⟨h0, h1, h2, h3, h4, h5⟩ k hk
    match k with
    | 0 => exact h0
    | 1 => exact h1
    | 2 => exact h2
    | 3 => exact h3
    | k + 4 =>
      simp at hk
      simp only [List.getElem_cons_succ, List.getElem_append]
      split
      · have := h4 k ‹_›; rwa [Nat.add_comm] at this
      · have e : k = r.byteCount.toNat := by omega
        subst e
        simpa [hl, Nat.add_comm] using h5

@[simp] theorem invalidLine_valid (lower : Bool) (l : Line) (ds : List Byte) :
    (invalidLine lower l ds).valid = false := rfl

@[simp] theorem invalidLine_data (lower : Bool) (l : Line) (ds : List Byte) :
    (invalidLine lower l ds).record.data = dataArray ds := rfl

@[simp] theorem hexPrefix_zero (lower : Bool) (l : Line) (p : Nat) : hexPrefix lower l p 0 = [] := rfl

/-- The loop that meets no character that is not hex decodes all the bytes (43_hex_line R204). -/
theorem hexData_prefix (lower : Bool) (l : Line) (n p : Nat) (ds : List Byte) (h : hexData lower l p n = some ds) :
    hexPrefix lower l p n = ds := by
  induction n generalizing p ds with
  | zero => cases h; rfl
  | succ n ih =>
    revert h
    simp only [hexData, hexPrefix]
    split
    · simp
    · split
      · simp
      · rename_i d _ _ es he
        rintro ⟨⟩
        rw [ih _ _ he]

/-- Byte `k` of what the loop decoded: there if no pair up to it held a character that is not hex (43_hex_line R204). -/
theorem hexPrefix_get (lower : Bool) (l : Line) (n p k : Nat) :
    (hexPrefix lower l p n).getD k 0#8 =
      if k < n ∧ ∀ j ≤ k, (hex2 lower l (p + 2 * j)).isSome then (hex2 lower l (p + 2 * k)).getD 0#8 else 0#8 := by
  induction n generalizing p k with
  | zero => simp
  | succ n ih =>
    simp only [hexPrefix]
    split
    · rename_i h
      rw [if_neg (fun hk => by have := hk.2 0 (Nat.zero_le _); simp [h] at this)]
      rfl
    · rename_i d h
      cases k with
      | zero => simp [h]
      | succ k =>
        rw [List.getD_cons_succ, ih]
        have e : ∀ j, p + 2 + 2 * j = p + 2 * (j + 1) := fun j => by omega
        simp only [e]
        congr 1
        apply propext
        constructor
        · rintro ⟨hk, hj⟩
          refine ⟨by omega, fun j hjk => ?_⟩
          cases j with
          | zero => simp [h]
          | succ j => exact hj j (by omega)
        · rintro ⟨hk, hj⟩
          exact ⟨by omega, fun j hjk => hj (j + 1) (by omega)⟩

theorem dataArray_get (ds : List Byte) (k : Nat) (h : k < 16) : (dataArray ds)[k] = ds.getD k 0#8 := by
  simp only [dataArray, Vector.getElem_mk, List.getElem_toArray, List.getElem_take, List.getElem_append,
    List.getElem_replicate, List.getD_eq_getElem?_getD]
  split
  · simp [*]
  · rw [List.getElem?_eq_none (by omega)]; rfl

/-- What an invalid result of `PARSE_LINE` holds: the data bytes decoded before the check that failed
(43_hex_line R204). -/
theorem parse_false (lower : Bool) (l : Line) (h : (parseLineBuf lower l).valid = false) :
    (∃ bc, DataReached lower l bc ∧ parseLineBuf lower l = invalidLine lower l (hexPrefix lower l 9 bc.toNat)) ∨
      ((∀ bc, ¬ DataReached lower l bc) ∧ parseLineBuf lower l = invalidLine lower l []) := by
  revert h
  unfold parseLineBuf
  simp only
  split
  · exact fun _ => .inr ⟨fun bc d => absurd d.long (by omega), rfl⟩
  split
  · exact fun _ => .inr ⟨fun bc d => absurd d.colon ‹_›, rfl⟩
  split
  · rename_i hn
    exact fun _ => .inr ⟨fun bc d => by have := d.count; simp [hn] at this, rfl⟩
  rename_i bc hbc
  have same : ∀ {b}, DataReached lower l b → b = bc := fun d => by
    have := d.count; rw [hbc] at this; cases this; rfl
  split
  · exact fun _ => .inr ⟨fun b d => by cases same d; exact absurd d.countRange (by bv_omega), rfl⟩
  split
  · exact fun _ => .inr ⟨fun b d => by cases same d; exact absurd d.length ‹_›, rfl⟩
  split
  · rename_i ah al rt h1 h2 h3
    split
    · refine fun _ => .inr ⟨fun b d => ?_, rfl⟩
      obtain ⟨r, hr, hr5⟩ := d.type
      rw [h3] at hr; cases hr
      bv_omega
    · have reached : DataReached lower l bc :=
        ⟨by omega, by by_contra; contradiction, hbc, by bv_omega, by by_contra; contradiction, by simp [h1, h2],
          rt, h3, by bv_omega⟩
      split
      · rename_i ds ck h4 h5
        split
        · exact fun _ => .inl ⟨bc, reached, by rw [hexData_prefix _ _ _ _ _ h4]⟩
        · intro h; cases h
      · exact fun _ => .inl ⟨bc, reached, rfl⟩
  · rename_i hno
    refine fun _ => .inr ⟨fun b d => ?_, rfl⟩
    obtain ⟨ah, h1⟩ := Option.isSome_iff_exists.mp d.address.1
    obtain ⟨al, h2⟩ := Option.isSome_iff_exists.mp d.address.2
    obtain ⟨rt, h3, _⟩ := d.type
    exact hno ah al rt h1 h2 h3

/-! ### The parse reads the text alone -/

theorem effectiveLength_congr {l m : Line} (h : lineText l = lineText m) : effectiveLength l = effectiveLength m := by
  rw [← lineText_length, ← lineText_length, h]

theorem lineByte_congr {l m : Line} (h : lineText l = lineText m) {p : Nat} (hp : p < effectiveLength l) :
    lineByte l p = lineByte m p := by
  rw [← lineText_getD l p hp, ← lineText_getD m p (effectiveLength_congr h ▸ hp), h]

theorem hex2_congr (lower : Bool) {l m : Line} (h : lineText l = lineText m) {p : Nat}
    (hp : p + 1 < effectiveLength l) : hex2 lower l p = hex2 lower m p := by
  rw [hex2, hex2, lineByte_congr h (by omega), lineByte_congr h hp]

theorem hexData_congr (lower : Bool) {l m : Line} (h : lineText l = lineText m) {n p : Nat}
    (hp : p + 2 * n ≤ effectiveLength l) : hexData lower l p n = hexData lower m p n := by
  induction n generalizing p with
  | zero => rfl
  | succ n ih => rw [hexData, hexData, hex2_congr lower h (by omega), ih (by omega)]

theorem hexPrefix_congr (lower : Bool) {l m : Line} (h : lineText l = lineText m) {n p : Nat}
    (hp : p + 2 * n ≤ effectiveLength l) : hexPrefix lower l p n = hexPrefix lower m p n := by
  induction n generalizing p with
  | zero => rfl
  | succ n ih => rw [hexPrefix, hexPrefix, hex2_congr lower h (by omega), ih (by omega)]

theorem invalidLine_congr (lower : Bool) {l m : Line} (h : lineText l = lineText m) (ds : List Byte) :
    invalidLine lower l ds = invalidLine lower m ds := by
  unfold invalidLine
  rw [h]

/-- What the buffer holds past the text is not parsed (43_hex_line R214). -/
theorem parseLineBuf_congr (lower : Bool) {l m : Line} (h : lineText l = lineText m) :
    parseLineBuf lower l = parseLineBuf lower m := by
  have e := effectiveLength_congr h
  have i := fun ds => invalidLine_congr lower h ds
  unfold parseLineBuf
  simp only [i, e]
  split
  · rfl
  have hl : 11 ≤ effectiveLength l := by omega
  rw [lineByte_congr h (by omega), hex2_congr lower h (by omega), hex2_congr lower h (by omega),
    hex2_congr lower h (by omega), hex2_congr lower h (by omega)]
  split
  · rfl
  split
  · rfl
  split
  · rfl
  split
  · rfl
  rw [hexData_congr lower h (by omega), hexPrefix_congr lower h (by omega), hex2_congr lower h (by omega)]

/-- Everything a valid parse says, check by check (43_hex_line R204). -/
theorem parse_true (lower : Bool) (l : Line) (h : (parseLineBuf lower l).valid = true) :
    ∃ bc ah al rt ds ck, lineByte l 0 = 0x3A#8 ∧ bc ≤ 16#8 ∧ effectiveLength l = 11 + 2 * bc.toNat ∧ rt ≤ 5#8 ∧
      hex2 lower l 1 = some bc ∧ hex2 lower l 3 = some ah ∧ hex2 lower l 5 = some al ∧ hex2 lower l 7 = some rt ∧
      hexData lower l 9 bc.toNat = some ds ∧ hex2 lower l (9 + 2 * bc.toNat) = some ck ∧
      bc + ah + al + rt + byteSum ds + ck = 0#8 ∧ parseLineBuf lower l = ⟨true, rt, ⟨bc, ah ++ al, dataArray ds, ck⟩⟩ := by
  revert h
  unfold parseLineBuf
  simp only
  split
  · simp
  split
  · simp
  split
  · simp
  rename_i bc hbc
  split
  · simp
  split
  · simp
  split
  · rename_i ah al rt h1 h2 h3
    split
    · simp
    split
    · rename_i ds ck h4 h5
      split
      · simp
      · intro _
        refine ⟨bc, ah, al, rt, ds, ck, ?_, ?_, ?_, ?_, hbc, h1, h2, h3, h4, h5, ?_, rfl⟩
        · by_contra; contradiction
        · rw [← BitVec.not_lt]; assumption
        · by_contra; contradiction
        · rw [← BitVec.not_lt]; assumption
        · by_contra; contradiction
    · simp
  · simp

theorem extract_join (a b : Byte) :
    (a ++ b : Half).extractLsb' 8 8 = a ∧ (a ++ b : Half).extractLsb' 0 8 = b := by
  constructor <;> (apply BitVec.eq_of_getLsbD_eq; intro i hi; simp only [BitVec.getLsbD_extractLsb', BitVec.getLsbD_append]; simp [hi])

theorem hexDigit_range (n : Byte) (h : n < 16#8) : 0x30#8 ≤ hexDigit n ∧ hexDigit n ≤ 0x46#8 := by
  unfold hexDigit; split <;> constructor <;> bv_omega

theorem hexText_range (bs : List Byte) : ∀ c ∈ hexText bs, 0x30#8 ≤ c ∧ c ≤ 0x46#8 := by
  induction bs with
  | nil => simp [hexText]
  | cons b bs ih =>
    intro c hc
    have e1 : (b >>> 4).toNat = b.toNat / 16 := by simp [Nat.shiftRight_eq_div_pow]
    have e0 : (b &&& 0x0F#8).toNat = b.toNat % 16 := by
      rw [BitVec.toNat_and]; exact Nat.and_two_pow_sub_one_eq_mod b.toNat 4
    simp only [hexText, List.mem_cons] at hc
    rcases hc with rfl | rfl | hc
    · apply hexDigit_range; rw [BitVec.lt_def, e1]; have := b.isLt; simp; omega
    · apply hexDigit_range; rw [BitVec.lt_def, e0]; simp; omega
    · exact ih c hc

/-- A text with no pad byte is the text of the line that holds it. -/
theorem lineOf_text (t : List Byte) (h : ∀ c ∈ t, c ≠ padByte) (hl : t.length ≤ 45) :
    lineText (lineOf t) = t := by
  have e : (lineOf t).toList = t ++ List.replicate (45 - t.length) padByte := by
    show (t ++ List.replicate 45 padByte).take 45 = _
    rw [List.take_append, List.take_of_length_le hl, List.take_replicate, Nat.min_eq_left (by omega)]
  have hf : t.findIdx (· = padByte) = t.length := by
    rw [List.findIdx_eq_length]; intro c hc; simpa using h c hc
  have : effectiveLength (lineOf t) = t.length := by
    unfold effectiveLength
    rw [e, List.findIdx_append, hf, if_neg (by omega)]
    cases h45 : 45 - t.length <;> simp [List.replicate_succ, List.findIdx_cons]
  unfold lineText
  rw [this, e, List.take_left]

/-- The characters of a record's text lie in 0x30 to 0x46. -/
theorem recordText_range (ty : Byte) (r : HexRecord) : ∀ c ∈ recordText ty r, 0x30#8 ≤ c ∧ c ≤ 0x46#8 := by
  intro c hc
  simp only [recordText, List.mem_cons] at hc
  rcases hc with rfl | hc
  · decide
  · exact hexText_range _ c hc

end Sys2Proof.Machine
end

