-- ==== Sys2Proof/Laws/Memory.lean ====
section
/-! SUPPORT. What the staging memory reads after a write, and that every write keeps its canonical form. -/

namespace Sys2Proof.Machine

@[simp] theorem Memory.read_nil (a : Nat) : Memory.read [] a = none := rfl

theorem Memory.read_write (m : Memory) (a b : Nat) (v : Byte) :
    Memory.read (Memory.write m a v) b = if b = a then some v else Memory.read m b := by
  induction m with
  | nil => simp [Memory.write, Memory.read]
  | cons c m ih =>
    obtain ⟨d, w⟩ := c
    simp only [Memory.write]
    split
    · simp only [Memory.read]
    · split
      · subst_vars; simp only [Memory.read]; split <;> rfl
      · simp only [Memory.read, ih]; split
        · rw [if_neg (by omega)]
        · rfl

@[simp] theorem Memory.read_write_same (m : Memory) (a : Nat) (v : Byte) :
    Memory.read (Memory.write m a v) a = some v := by simp [Memory.read_write]

theorem Memory.read_write_other (m : Memory) {a b : Nat} (v : Byte) (h : b ≠ a) :
    Memory.read (Memory.write m a v) b = Memory.read m b := by simp [Memory.read_write, h]

/-- A byte outside the written addresses reads as before. -/
theorem Memory.read_writeBytes_other (bs : List Byte) (m : Memory) (w : Word) (a : Nat)
    (h : ∀ k < bs.length, a ≠ (w.toNat + k) % 2 ^ 32) :
    Memory.read (Memory.writeBytes m w bs) a = Memory.read m a := by
  induction bs generalizing m w with
  | nil => rfl
  | cons b bs ih =>
    rw [Memory.writeBytes, ih, Memory.read_write_other]
    · have h0 := h 0 (by simp)
      rwa [Nat.add_zero, Nat.mod_eq_of_lt w.isLt] at h0
    · intro k hk
      have h1 := h (k + 1) (by simpa using hk)
      have e : ((w + 1#32).toNat + k) % 2 ^ 32 = (w.toNat + (k + 1)) % 2 ^ 32 := by
        rw [BitVec.toNat_add]; simp; omega
      rwa [e]

/-- Byte `k` of a write stands at its address, modulo 2^32. -/
theorem Memory.read_writeBytes_at (bs : List Byte) (m : Memory) (w : Word) (k : Nat)
    (hk : k < bs.length) (hlen : bs.length ≤ 2 ^ 32) :
    Memory.read (Memory.writeBytes m w bs) ((w.toNat + k) % 2 ^ 32) = some bs[k] := by
  induction bs generalizing m w k with
  | nil => simp at hk
  | cons b bs ih =>
    have hlen' : bs.length + 1 ≤ 2 ^ 32 := by simpa using hlen
    have e : ∀ j, ((w + 1#32).toNat + j) % 2 ^ 32 = (w.toNat + (j + 1)) % 2 ^ 32 := by
      intro j; rw [BitVec.toNat_add]; simp; omega
    rw [Memory.writeBytes]
    cases k with
    | zero =>
      rw [Nat.add_zero, Nat.mod_eq_of_lt w.isLt, Memory.read_writeBytes_other]
      · simp
      · intro j hj
        rw [e j]
        have := w.isLt
        omega
    | succ k =>
      rw [← e k]
      simpa using ih (Memory.write m w.toNat b) (w + 1#32) k (by simpa using hk) (by omega)

theorem Memory.wfFrom_mono {lo lo' : Nat} (m : Memory) (h : Memory.wfFrom lo m = true) (hl : lo' ≤ lo) :
    Memory.wfFrom lo' m = true := by
  cases m with
  | nil => rfl
  | cons c m =>
    obtain ⟨a, v⟩ := c
    simp [Memory.wfFrom] at h ⊢
    exact ⟨by omega, h.2⟩

theorem Memory.wfFrom_write (m : Memory) (lo a : Nat) (v : Byte) (h : Memory.wfFrom lo m = true) (hlo : lo ≤ a)
    (ha : a < 2 ^ 32) : Memory.wfFrom lo (Memory.write m a v) = true := by
  induction m generalizing lo with
  | nil => simp [Memory.write, Memory.wfFrom]; omega
  | cons c m ih =>
    obtain ⟨b, w⟩ := c
    simp [Memory.wfFrom] at h
    simp only [Memory.write]
    split
    · simp [Memory.wfFrom, h.2]; omega
    · split
      · subst_vars; simp [Memory.wfFrom, h]
      · simp [Memory.wfFrom, h.1, ih (b + 1) h.2 (by omega)]

/-- A write keeps the canonical form. -/
theorem Memory.wf_write (m : Memory) (a : Nat) (v : Byte) (h : Memory.wf m = true) (ha : a < 2 ^ 32) :
    Memory.wf (Memory.write m a v) = true := Memory.wfFrom_write m 0 a v h (Nat.zero_le a) ha

/-- A block write keeps the canonical form. -/
theorem Memory.wf_writeBytes (bs : List Byte) (m : Memory) (w : Word) (h : Memory.wf m = true) :
    Memory.wf (Memory.writeBytes m w bs) = true := by
  induction bs generalizing m w with
  | nil => exact h
  | cons b bs ih => exact ih _ _ (Memory.wf_write m _ b h w.isLt)

/-- The memory of the reset state has the canonical form. -/
theorem Memory.wf_reset : Memory.wf State.reset.stage = true := rfl

end Sys2Proof.Machine
end

