-- ==== Sys2Proof/Laws/PerInstr.lean ====
section
/-! SUPPORT. One statement made for every constructor of `Instr`: which layer an operation's encoding belongs to, and
that an operation with no layer has none (30_encoding R117). -/

namespace Sys2Proof.Laws.EncodingLayer

/-- The encoding of an operation is of its layer. -/
def Statement (i : Instr) : Prop := ∀ cfg : Config, (encode cfg i).map Encoded.layer = i.layer

theorem init (lc : BitVec 15) (fc : Word) (ic : Half) : Statement (.init lc fc ic) := fun _ => rfl

theorem seg (ln : BitVec 15) (si st : BitVec 4) (p : Vector Byte 5) : Statement (.seg ln si st p) := fun _ => rfl

theorem recData (r : HexRecord) : Statement (.recData r) := fun _ => rfl

theorem recEof (r : HexRecord) : Statement (.recEof r) := fun _ => rfl

theorem recEsa (r : HexRecord) : Statement (.recEsa r) := fun _ => rfl

theorem recSsa (r : HexRecord) : Statement (.recSsa r) := fun _ => rfl

theorem recEla (r : HexRecord) : Statement (.recEla r) := fun _ => rfl

theorem recSla (r : HexRecord) : Statement (.recSla r) := fun _ => rfl

theorem rspNone : Statement .rspNone := fun _ => rfl

theorem rspSendLine : Statement .rspSendLine := fun _ => rfl

theorem rspTransferComplete : Statement .rspTransferComplete := fun _ => rfl

theorem rspError : Statement .rspError := fun _ => rfl

theorem opReset : Statement .opReset := fun _ => rfl

theorem opAbort : Statement .opAbort := fun _ => rfl

theorem opFrame (buf : Frame) (now : Word) : Statement (.opFrame buf now) := fun _ => rfl

theorem opTick (now : Word) : Statement (.opTick now) := fun _ => rfl

theorem qInProgress : Statement .qInProgress := fun _ => rfl

theorem qComplete : Statement .qComplete := fun _ => rfl

theorem crc32 (buf : List Byte) : Statement (.crc32 buf) := fun _ => rfl

theorem crc32Upd (buf : List Byte) : Statement (.crc32Upd buf) := fun _ => rfl

theorem unpackInit (buf : Frame) : Statement (.unpackInit buf) := fun _ => rfl

theorem packInit (lc : BitVec 15) (fc : Word) (ic : Half) : Statement (.packInit lc fc ic) := fun _ => rfl

theorem unpackSeg (buf : Frame) : Statement (.unpackSeg buf) := fun _ => rfl

theorem packSeg (ln : BitVec 15) (si st : BitVec 4) (p : Vector Byte 5) : Statement (.packSeg ln si st p) := fun _ => rfl

theorem parseLine : Statement .parseLine := fun _ => rfl

end Sys2Proof.Laws.EncodingLayer
end

