-- ==== Sys2Proof/Laws/Records.lean ====
section
/-! SUPPORT. What a record handler can do, said once (44_record_dispatch R251). -/

namespace Sys2Proof.Machine

/-- A record write leaves the registers alone, and STAGE is the old one with bytes written at `w`. -/
theorem recordWrite_spec (w : Word) (bs : List Byte) (s : State) :
    (recordWrite w bs s).1.ctx = s.ctx ∧ (recordWrite w bs s).1.cfg = s.cfg ∧
      (recordWrite w bs s).1.port = s.port ∧ (recordWrite w bs s).1.now = s.now ∧
      (recordWrite w bs s).1.flashReply = s.flashReply ∧
      ((recordWrite w bs s).1.stage = s.stage ∨
        ∃ cs, cs.length = bs.length ∧ (recordWrite w bs s).1.stage = Memory.writeBytes s.stage w cs) := by
  unfold recordWrite
  split
  · simp
  · split
    · split
      · refine ⟨by simp, by simp, by simp, by simp, by simp, .inr ⟨bs, rfl, ?_⟩⟩
        exact (State.flashWriteBlock_ok w bs s ‹_›).1
      · refine ⟨by simp, by simp, by simp, by simp, by simp, .inr ⟨_, failedFlashBytes_length s.freeCount bs.length, ?_⟩⟩
        exact (State.flashWriteBlock_failed w bs s ‹_›).1
    · exact ⟨rfl, rfl, rfl, rfl, rfl, .inr ⟨bs, rfl, rfl⟩⟩

/-- `REC_DATA` beyond the window's end: the bounds are updated, nothing is written (44_record_dispatch R234). -/
theorem recordData_out {r : HexRecord} {s : State} (h : windowEnd s.cfg < endAddress s.ctx r) :
    recordData r s =
      ((s.updateBounds (imageAddress s.ctx r) (endAddress s.ctx r)).raise .addressOutOfRange, false) := by
  simp [recordData, h]

/-- `REC_DATA` within it: the bounds are updated, then the write (44_record_dispatch R235). -/
theorem recordData_in {r : HexRecord} {s : State} (h : endAddress s.ctx r ≤ windowEnd s.cfg) :
    recordData r s =
      recordWrite (stageAddress s.cfg (imageAddress s.ctx r)) (dataBytes r)
        (s.updateBounds (imageAddress s.ctx r) (endAddress s.ctx r)) := by
  simp [recordData, Nat.not_lt.mpr h]

/-- `REC_DATA` writes the bounds, and bytes at `W` if at all (44_record_dispatch R232, R251). -/
theorem recordData_spec (r : HexRecord) (s : State) :
    (recordData r s).1.ctx =
        { s.ctx with
          minAddress := minWord s.ctx.minAddress (imageAddress s.ctx r)
          maxAddress := maxWord s.ctx.maxAddress (BitVec.ofNat 32 (endAddress s.ctx r)) } ∧
      (recordData r s).1.cfg = s.cfg ∧ (recordData r s).1.port = s.port ∧ (recordData r s).1.now = s.now ∧
      (recordData r s).1.flashReply = s.flashReply ∧
      ((recordData r s).1.stage = s.stage ∨
        (endAddress s.ctx r ≤ windowEnd s.cfg ∧ ∃ cs, cs.length = (dataBytes r).length ∧
          (recordData r s).1.stage =
            Memory.writeBytes s.stage (stageAddress s.cfg (imageAddress s.ctx r)) cs)) := by
  rcases Nat.lt_or_ge (windowEnd s.cfg) (endAddress s.ctx r) with hw | hw
  · rw [recordData_out hw]
    simp
  · rw [recordData_in hw]
    have h := recordWrite_spec (stageAddress s.cfg (imageAddress s.ctx r)) (dataBytes r)
      (s.updateBounds (imageAddress s.ctx r) (endAddress s.ctx r))
    simp only [State.updateBounds_ctx, State.updateBounds_cfg, State.updateBounds_port, State.updateBounds_now,
      State.updateBounds_flashReply, State.updateBounds_stage] at h
    refine ⟨h.1, h.2.1, h.2.2.1, h.2.2.2.1, h.2.2.2.2.1, ?_⟩
    rcases h.2.2.2.2.2 with h | h
    · exact .inl h
    · exact .inr ⟨hw, h⟩

@[simp] theorem recordEsa_stage (r : HexRecord) (s : State) : (recordEsa r s).1.stage = s.stage := rfl

@[simp] theorem recordEsa_cfg (r : HexRecord) (s : State) : (recordEsa r s).1.cfg = s.cfg := rfl

@[simp] theorem recordEsa_port (r : HexRecord) (s : State) : (recordEsa r s).1.port = s.port := rfl

@[simp] theorem recordEsa_now (r : HexRecord) (s : State) : (recordEsa r s).1.now = s.now := rfl

@[simp] theorem recordEsa_flashReply (r : HexRecord) (s : State) : (recordEsa r s).1.flashReply = s.flashReply := rfl

@[simp] theorem recordEsa_freeCount (r : HexRecord) (s : State) : (recordEsa r s).1.freeCount = s.freeCount := rfl

@[simp] theorem recordEsa_out (r : HexRecord) (s : State) : (recordEsa r s).1.out = s.out := rfl

@[simp] theorem recordEsa_ctx (r : HexRecord) (s : State) :
    (recordEsa r s).1.ctx = { s.ctx with baseAddress := segmentBase r } := rfl

@[simp] theorem recordEsa_result (r : HexRecord) (s : State) : (recordEsa r s).2 = true := rfl

@[simp] theorem recordEla_stage (r : HexRecord) (s : State) : (recordEla r s).1.stage = s.stage := rfl

@[simp] theorem recordEla_cfg (r : HexRecord) (s : State) : (recordEla r s).1.cfg = s.cfg := rfl

@[simp] theorem recordEla_port (r : HexRecord) (s : State) : (recordEla r s).1.port = s.port := rfl

@[simp] theorem recordEla_now (r : HexRecord) (s : State) : (recordEla r s).1.now = s.now := rfl

@[simp] theorem recordEla_flashReply (r : HexRecord) (s : State) : (recordEla r s).1.flashReply = s.flashReply := rfl

@[simp] theorem recordEla_freeCount (r : HexRecord) (s : State) : (recordEla r s).1.freeCount = s.freeCount := rfl

@[simp] theorem recordEla_out (r : HexRecord) (s : State) : (recordEla r s).1.out = s.out := rfl

@[simp] theorem recordEla_ctx (r : HexRecord) (s : State) :
    (recordEla r s).1.ctx = { s.ctx with baseAddress := linearBase r } := rfl

@[simp] theorem recordEla_result (r : HexRecord) (s : State) : (recordEla r s).2 = true := rfl

@[simp] theorem recordSsa_eq (s : State) : recordSsa s = (s, true) := rfl

@[simp] theorem recordSla_eq (s : State) : recordSla s = (s, true) := rfl

/-- The 16-bit data value of an address record as a number (20_memory R88). -/
theorem dataWord_toNat (r : HexRecord) : (dataWord r).toNat = r.data[0].toNat * 256 + r.data[1].toNat := by
  unfold dataWord
  have h0 := r.data[0].isLt
  have h1 := r.data[1].isLt
  generalize r.data[0] = x at *
  generalize r.data[1] = y at *
  rw [BitVec.toNat_or, BitVec.toNat_shiftLeft, BitVec.toNat_setWidth, BitVec.toNat_setWidth,
    Nat.mod_eq_of_lt (by omega : x.toNat < 2 ^ 32), Nat.mod_eq_of_lt (by omega : y.toNat < 2 ^ 32),
    Nat.mod_eq_of_lt (by rw [Nat.shiftLeft_eq]; omega), ← Nat.shiftLeft_add_eq_or_of_lt h1, Nat.shiftLeft_eq]

theorem segmentBase_toNat (r : HexRecord) : (segmentBase r).toNat = (dataWord r).toNat * 16 := by
  have h := dataWord_toNat r
  have h0 := r.data[0].isLt
  have h1 := r.data[1].isLt
  unfold segmentBase
  rw [BitVec.toNat_shiftLeft, Nat.shiftLeft_eq]
  omega

theorem linearBase_toNat (r : HexRecord) : (linearBase r).toNat = (dataWord r).toNat * 65536 := by
  have h := dataWord_toNat r
  have h0 := r.data[0].isLt
  have h1 := r.data[1].isLt
  unfold linearBase
  rw [BitVec.toNat_shiftLeft, Nat.shiftLeft_eq]
  omega

/-- What a handler may do: the parameters, the requests and the clock stay; of the registers only the bounds, the EOF
flag and the base change; STAGE keeps its canonical form (44_record_dispatch R251). -/
structure HandlerEffect (r : HexRecord) (s t : State) : Prop where
  cfg : t.cfg = s.cfg
  port : t.port = s.port
  now : t.now = s.now
  flashReply : t.flashReply = s.flashReply
  wf : Memory.wf s.stage = true → Memory.wf t.stage = true
  ctx : (∃ a b, t.ctx = { s.ctx with minAddress := a, maxAddress := b }) ∨
    t.ctx = { s.ctx with eofReceived := true } ∨
    t.ctx = { s.ctx with baseAddress := segmentBase r } ∨
    t.ctx = { s.ctx with baseAddress := linearBase r }

theorem handlerEffect_refl (r : HexRecord) (s : State) : HandlerEffect r s s :=
  ⟨rfl, rfl, rfl, rfl, id, .inl ⟨_, _, rfl⟩⟩

theorem recordData_effect (r : HexRecord) (s : State) : HandlerEffect r s (recordData r s).1 := by
  have h := recordData_spec r s
  refine ⟨h.2.1, h.2.2.1, h.2.2.2.1, h.2.2.2.2.1, fun hw => ?_, .inl ⟨_, _, h.1⟩⟩
  rcases h.2.2.2.2.2 with h | ⟨-, cs, -, h⟩
  · rwa [h]
  · rw [h]; exact Memory.wf_writeBytes _ _ _ hw

theorem recordEof_effect (r : HexRecord) (s : State) : HandlerEffect r s (recordEof s).1 := by
  unfold recordEof
  split
  · exact ⟨rfl, rfl, rfl, rfl, id, .inr (.inl rfl)⟩
  · exact handlerEffect_refl r s

theorem recordEsa_effect (r : HexRecord) (s : State) : HandlerEffect r s (recordEsa r s).1 where
  cfg := rfl
  port := rfl
  now := rfl
  flashReply := rfl
  wf h := by rwa [recordEsa_stage]
  ctx := by right; right; left; exact recordEsa_ctx r s

theorem recordEla_effect (r : HexRecord) (s : State) : HandlerEffect r s (recordEla r s).1 where
  cfg := rfl
  port := rfl
  now := rfl
  flashReply := rfl
  wf h := by rwa [recordEla_stage]
  ctx := by right; right; right; exact recordEla_ctx r s

/-- What any handler can do, said once. -/
theorem dispatchRecord_effect (pl : ParsedLine) (s : State) :
    HandlerEffect pl.record s (dispatchRecord pl s).1 := by
  unfold dispatchRecord
  split
  · exact recordData_effect _ s
  · exact recordEof_effect _ s
  · exact recordEsa_effect _ s
  · exact handlerEffect_refl _ s
  · exact recordEla_effect _ s
  · exact handlerEffect_refl _ s
  · exact handlerEffect_refl _ s

end Sys2Proof.Machine
end

