-- ==== Sys2Proof/Laws/Ports.lean ====
section
/-! SUPPORT. What finalising a line, the tick and the step can do, said once. -/

namespace Sys2Proof.Machine

/-- The three ends of line finalisation (45_transfer_control R275 to R277). -/
theorem finaliseLine_cases (s : State) :
    ((parseLineBuf s.cfg.hexAcceptLower s.ctx.lineBuf).valid = false ∧
      finaliseLine s = (s.raise .lineParseError).lineReset) ∨
    ((parseLineBuf s.cfg.hexAcceptLower s.ctx.lineBuf).valid = true ∧
      (dispatchRecord (parseLineBuf s.cfg.hexAcceptLower s.ctx.lineBuf) s).2 = true ∧
      finaliseLine s =
        (acceptLine (dispatchRecord (parseLineBuf s.cfg.hexAcceptLower s.ctx.lineBuf) s).1).lineReset) ∨
    ((parseLineBuf s.cfg.hexAcceptLower s.ctx.lineBuf).valid = true ∧
      (dispatchRecord (parseLineBuf s.cfg.hexAcceptLower s.ctx.lineBuf) s).2 = false ∧
      finaliseLine s =
        ((dispatchRecord (parseLineBuf s.cfg.hexAcceptLower s.ctx.lineBuf) s).1.raise
          .lineProcessingError).lineReset) := by
  unfold finaliseLine
  cases h : (parseLineBuf s.cfg.hexAcceptLower s.ctx.lineBuf).valid
  · exact .inl ⟨rfl, by simp [h]⟩
  · cases h2 : (dispatchRecord (parseLineBuf s.cfg.hexAcceptLower s.ctx.lineBuf) s).2
    · exact .inr (.inr ⟨rfl, rfl, by simp [h, h2]⟩)
    · exact .inr (.inl ⟨rfl, rfl, by simp [h, h2]⟩)

@[simp] theorem acceptLine_ctx (s : State) : (acceptLine s).ctx = { s.ctx with
    fileCrcReg := crcFeed s.ctx.fileCrcReg (lineText s.ctx.lineBuf)
    currentLineIndex := s.ctx.currentLineIndex + 1#16 } := rfl

@[simp] theorem acceptLine_stage (s : State) : (acceptLine s).stage = s.stage := rfl

@[simp] theorem acceptLine_cfg (s : State) : (acceptLine s).cfg = s.cfg := rfl

@[simp] theorem acceptLine_port (s : State) : (acceptLine s).port = s.port := rfl

@[simp] theorem acceptLine_now (s : State) : (acceptLine s).now = s.now := rfl

@[simp] theorem acceptLine_flashReply (s : State) : (acceptLine s).flashReply = s.flashReply := rfl

@[simp] theorem acceptLine_freeCount (s : State) : (acceptLine s).freeCount = s.freeCount := rfl

@[simp] theorem acceptLine_out (s : State) : (acceptLine s).out = s.out := rfl

/-- What line finalisation does to the registers: a handler's effect `d` on them, then, if the line was accepted, the
file CRC and the index, and the line reset (45_transfer_control R275, 44_record_dispatch R251). -/
theorem finaliseLine_ctx (s : State) :
    ∃ d : Context,
      ((∃ a b, d = { s.ctx with minAddress := a, maxAddress := b }) ∨ d = { s.ctx with eofReceived := true } ∨
        ∃ r : HexRecord, d = { s.ctx with baseAddress := segmentBase r } ∨
          d = { s.ctx with baseAddress := linearBase r }) ∧
      ((finaliseLine s).ctx = freshLine d ∨
        (finaliseLine s).ctx = freshLine { d with
          fileCrcReg := crcFeed s.ctx.fileCrcReg (lineText s.ctx.lineBuf)
          currentLineIndex := s.ctx.currentLineIndex + 1#16 }) := by
  have he := (dispatchRecord_effect (parseLineBuf s.cfg.hexAcceptLower s.ctx.lineBuf) s).ctx
  have hd : ∀ (r : HexRecord) (d : Context), (∃ a b, d = { s.ctx with minAddress := a, maxAddress := b }) ∨
      d = { s.ctx with eofReceived := true } ∨ d = { s.ctx with baseAddress := segmentBase r } ∨
        d = { s.ctx with baseAddress := linearBase r } →
      d.fileCrcReg = s.ctx.fileCrcReg ∧ d.currentLineIndex = s.ctx.currentLineIndex ∧ d.lineBuf = s.ctx.lineBuf := by
    rintro r d (⟨a, b, rfl⟩ | rfl | rfl | rfl) <;> exact ⟨rfl, rfl, rfl⟩
  have hx := hd _ _ he
  rcases finaliseLine_cases s with ⟨-, h⟩ | ⟨-, -, h⟩ | ⟨-, -, h⟩ <;> rw [h]
  · exact ⟨s.ctx, .inl ⟨_, _, rfl⟩, .inl rfl⟩
  · refine ⟨(dispatchRecord (parseLineBuf s.cfg.hexAcceptLower s.ctx.lineBuf) s).1.ctx, ?_, .inr ?_⟩
    · rcases he with he | he | he | he
      · exact .inl he
      · exact .inr (.inl he)
      · exact .inr (.inr ⟨_, .inl he⟩)
      · exact .inr (.inr ⟨_, .inr he⟩)
    · simp only [State.lineReset_ctx, acceptLine_ctx, freshLine, hx.1, hx.2.1, hx.2.2]
  · refine ⟨(dispatchRecord (parseLineBuf s.cfg.hexAcceptLower s.ctx.lineBuf) s).1.ctx, ?_, .inl ?_⟩
    · rcases he with he | he | he | he
      · exact .inl he
      · exact .inr (.inl he)
      · exact .inr (.inr ⟨_, .inl he⟩)
      · exact .inr (.inr ⟨_, .inr he⟩)
    · simp only [State.lineReset_ctx, State.raise_ctx, freshLine]

/-- Line finalisation leaves the parameters, the requests, the clock and the flash primitive's answer, and keeps the
canonical form of STAGE. -/
theorem finaliseLine_env (s : State) :
    (finaliseLine s).cfg = s.cfg ∧ (finaliseLine s).port = s.port ∧ (finaliseLine s).now = s.now ∧
      (finaliseLine s).flashReply = s.flashReply ∧
      (Memory.wf s.stage = true → Memory.wf (finaliseLine s).stage = true) := by
  have e := dispatchRecord_effect (parseLineBuf s.cfg.hexAcceptLower s.ctx.lineBuf) s
  rcases finaliseLine_cases s with ⟨-, h⟩ | ⟨-, -, h⟩ | ⟨-, -, h⟩ <;> rw [h]
  · exact ⟨rfl, rfl, rfl, rfl, id⟩
  · simp only [State.lineReset_cfg, State.lineReset_port, State.lineReset_now, State.lineReset_flashReply,
      State.lineReset_stage, acceptLine_cfg, acceptLine_port, acceptLine_now, acceptLine_flashReply, acceptLine_stage]
    exact ⟨e.cfg, e.port, e.now, e.flashReply, e.wf⟩
  · simp only [State.lineReset_cfg, State.lineReset_port, State.lineReset_now, State.lineReset_flashReply,
      State.lineReset_stage, State.raise_cfg, State.raise_port, State.raise_now, State.raise_flashReply,
      State.raise_stage]
    exact ⟨e.cfg, e.port, e.now, e.flashReply, e.wf⟩

/-- The seven ends of a tick, in the order of its priority list (45_transfer_control R270). -/
theorem tickSteps_cases (s : State) :
    (s.ctx.inProgress = false ∧ tickSteps s = idleTick s) ∨
    (s.ctx.inProgress = true ∧ transferTimedOut s.cfg s.now s.ctx = true ∧
      tickSteps s = s.terminalError .inactivityTimeout) ∨
    (s.ctx.inProgress = true ∧ transferTimedOut s.cfg s.now s.ctx = false ∧
      segmentTimedOut s.cfg s.now s.ctx = true ∧ tickSteps s = (s.raise .segmentTimeout).emit .sendLine) ∨
    (s.ctx.inProgress = true ∧ transferTimedOut s.cfg s.now s.ctx = false ∧
      segmentTimedOut s.cfg s.now s.ctx = false ∧ s.ctx.newInitPending = true ∧ tickSteps s = reportInit s) ∨
    (s.ctx.inProgress = true ∧ transferTimedOut s.cfg s.now s.ctx = false ∧
      segmentTimedOut s.cfg s.now s.ctx = false ∧ s.ctx.newInitPending = false ∧ ready s.ctx = true ∧
      tickSteps s = (finaliseLine s).emit .sendLine) ∨
    (s.ctx.inProgress = true ∧ transferTimedOut s.cfg s.now s.ctx = false ∧
      segmentTimedOut s.cfg s.now s.ctx = false ∧ s.ctx.newInitPending = false ∧ ready s.ctx = false ∧
      s.ctx.eofReceived = true ∧ tickSteps s = fileCrcGate s) ∨
    (s.ctx.inProgress = true ∧ transferTimedOut s.cfg s.now s.ctx = false ∧
      segmentTimedOut s.cfg s.now s.ctx = false ∧ s.ctx.newInitPending = false ∧ ready s.ctx = false ∧
      s.ctx.eofReceived = false ∧ tickSteps s = s.emit .none) := by
  unfold tickSteps
  cases s.ctx.inProgress <;> cases transferTimedOut s.cfg s.now s.ctx <;> cases segmentTimedOut s.cfg s.now s.ctx <;>
    cases s.ctx.newInitPending <;> cases ready s.ctx <;> cases s.ctx.eofReceived <;> simp

/-- The two ends of the file-CRC gate (45_transfer_control R280). -/
theorem fileCrcGate_cases (s : State) :
    (fileCrcMatches s.ctx = true ∧
      fileCrcGate s = ({ s with ctx.complete := true, ctx.inProgress := false }).emit .transferComplete) ∨
    (fileCrcMatches s.ctx = false ∧ fileCrcGate s = s.terminalError .fileChecksumError) := by
  unfold fileCrcGate
  cases fileCrcMatches s.ctx <;> simp

@[simp] theorem exec_opReset (s : State) : exec .opReset s = .next s.clearOutputs.resetRegisters := rfl

@[simp] theorem exec_opAbort (s : State) : exec .opAbort s = .next s.clearOutputs.resetRegisters := rfl

@[simp] theorem exec_opTick (now : Word) (s : State) :
    exec (.opTick now) s = .next (tickSteps { s.clearOutputs with now := now }) := rfl

@[simp] theorem exec_qInProgress (s : State) :
    exec .qInProgress s = .next (s.clearOutputs.setRet (.bool s.ctx.inProgress)) := rfl

@[simp] theorem exec_qComplete (s : State) :
    exec .qComplete s = .next (s.clearOutputs.setRet (.bool s.ctx.complete)) := rfl

/-- What a tick does to the registers: the one-shot flags only, everything reset, line finalisation, or the completion
of the transfer (45_transfer_control R270). -/
theorem tickSteps_ctx (s : State) :
    (∃ p e, (tickSteps s).ctx = { s.ctx with newInitPending := p, initError := e }) ∨
    (s.ctx.inProgress = true ∧ (tickSteps s).ctx = Context.reset) ∨
    (FinalisesAt s.now s ∧ tickSteps s = (finaliseLine s).emit .sendLine) ∨
    (s.ctx.inProgress = true ∧ s.ctx.eofReceived = true ∧ fileCrcMatches s.ctx = true ∧
      (tickSteps s).ctx = { s.ctx with complete := true, inProgress := false }) := by
  rcases tickSteps_cases s with ⟨-, e⟩ | ⟨h, -, e⟩ | ⟨-, -, -, e⟩ | ⟨-, -, -, -, e⟩ | ⟨h1, h2, -, h4, h5, e⟩ |
    ⟨h, -, -, -, -, he, e⟩ | ⟨-, -, -, -, -, -, e⟩ <;> rw [e]
  · left
    unfold idleTick
    split <;> exact ⟨_, _, rfl⟩
  · exact .inr (.inl ⟨h, rfl⟩)
  · exact .inl ⟨_, _, rfl⟩
  · exact .inl ⟨_, _, rfl⟩
  · exact .inr (.inr (.inl ⟨⟨h1, h2, h5, h4⟩, rfl⟩))
  · rcases fileCrcGate_cases s with ⟨hm, h'⟩ | ⟨-, h'⟩ <;> rw [h']
    · exact .inr (.inr (.inr ⟨h, he, hm, rfl⟩))
    · exact .inr (.inl ⟨h, rfl⟩)
  · exact .inl ⟨_, _, rfl⟩

/-- The two kinds of frame operation (45_transfer_control R262). -/
theorem exec_opFrame (buf : Frame) (now : Word) (s : State) :
    (classify buf = .init ∧
      exec (.opFrame buf now) s = .next (processInit (unpackInitFrame buf) { s.clearOutputs with now := now })) ∨
    (classify buf = .segment ∧
      exec (.opFrame buf now) s = processSegment (unpackSegFrame buf) { s.clearOutputs with now := now }) := by
  simp only [exec, execOpFrame]
  cases classify buf <;> simp

/-- With no request the machine holds its state (60_exceptions R339). -/
theorem step_idle {s : State} (h : s.port = []) : step s = .next s := by
  simp [step, State.takeRequest, h]

/-- With a request the step is its operation. -/
theorem step_request {s : State} {r : Request} {rest : List Request} (h : s.port = r :: rest) :
    step s = exec r.op.instr { s with port := rest, flashReply := r.flashReply } := by
  simp [step, State.takeRequest, h]

end Sys2Proof.Machine
end

