-- ==== Sys2Proof/Tests/Slice0.lean ====
section
/-! SUPPORT. Tests: ill-formed terms are refused, written-out words decode, single steps give the values of
95_test_vectors, and every statement with hypotheses has a state and operands that meet them. Expected values come from
the spec's vectors, or are worked out from its rules. -/

namespace Sys2Proof.Tests

/- One declaration after the other: many proofs by evaluation at a time take more threads than there are. -/
set_option Elab.async false

open Sys2Proof Sys2Proof.Machine

/-! ### Helpers -/

/-- A field of the next state; none where the operation stops. -/
def after {α : Type} (o : Host.Outcome State Fault Refusal) (f : State → α) : Option α :=
  match o with
  | .next t => some (f t)
  | .fault _ => none
  | .refused _ => none

/-- Concrete parameters: the window of 95_test_vectors section 5, in flash. -/
def cfg : Config where
  tSegmentMs := 5000#32
  tTransferMs := 15000#32
  flashBaseAddr := 0x1000#32
  flashBufferBase := 0x1000#32
  flashBufferSize := 0x100#32
  flashRegions := [(0x1000, 0x2000)]
  debug := false
  dryRun := false
  hexAcceptLower := true
  idleBadInitReport := false
  respPad := 0x00#8

/-- Just after reset, with concrete parameters. -/
def idle : State := { State.reset with cfg := cfg }

/-- A transfer of two lines under way, the first line awaited, the Init acknowledged, last frame at 100. -/
def receiving : State :=
  { idle with ctx := { Context.reset with inProgress := true, expectedLines := 2#16, lastFrameMs := 100#32 } }

/-- The same, with `text` as the ready line. -/
def lineReady (text : List Byte) : State :=
  { receiving with
    ctx.segmentTotal := 9#8
    ctx.segmentsReceived := 0x1FF#9
    ctx.lineBuf := lineOf text }

/-- The state P1 of 95_test_vectors ends in. -/
def completed : State :=
  { idle with ctx := { Context.reset with
      eofReceived := true
      complete := true
      expectedLines := 1#16
      currentLineIndex := 1#16
      expectedFileCrc32 := 0x836BD2BA#32
      fileCrcReg := 0x7C942D45#32
      lastFrameMs := 1012#32 } }

/-- P1 before its last tick: state Completing. -/
def completing : State := { completed with ctx.complete := false, ctx.inProgress := true }

/-- One request of the host. -/
def asked (op : PortOp) (s : State) : State := { s with port := [⟨op, 0⟩] }

/-- A record without data. -/
def bare (checksum : Byte) : HexRecord := ⟨0#8, 0#16, dataArray [], checksum⟩

/-- Line D1 of 95_test_vectors: 16 bytes to the end of the window. -/
def recordD1 : HexRecord := ⟨0x10#8, 0x10F0#16, dataArray [0, 1, 2, 3, 4, 5, 6, 7, 8, 9, 10, 11, 12, 13, 14, 15], 0x78#8⟩

/-- Line D2: one byte further. -/
def recordD2 : HexRecord := ⟨0x10#8, 0x10F1#16, dataArray [0, 1, 2, 3, 4, 5, 6, 7, 8, 9, 10, 11, 12, 13, 14, 15], 0x77#8⟩

/-- `":00000001FF"`. -/
def eofText : List Byte := [0x3A, 0x30, 0x30, 0x30, 0x30, 0x30, 0x30, 0x30, 0x31, 0x46, 0x46]

/-- `":00000001ff"`. -/
def eofLower : List Byte := [0x3A, 0x30, 0x30, 0x30, 0x30, 0x30, 0x30, 0x30, 0x31, 0x66, 0x66]

/-- `":00000005FB"`. -/
def slaText : List Byte := [0x3A, 0x30, 0x30, 0x30, 0x30, 0x30, 0x30, 0x30, 0x35, 0x46, 0x42]

/-- `":00000003FD"`. -/
def ssaText : List Byte := [0x3A, 0x30, 0x30, 0x30, 0x30, 0x30, 0x30, 0x30, 0x33, 0x46, 0x44]

/-- `":020000021200EA"`. -/
def esaText : List Byte := [0x3A, 0x30, 0x32, 0x30, 0x30, 0x30, 0x30, 0x30, 0x32, 0x31, 0x32, 0x30, 0x30, 0x45, 0x41]

/-- The record of `esaText`. -/
def esaRecord : HexRecord := ⟨2#8, 0#16, dataArray [0x12, 0x00], 0xEA#8⟩

/-- The payload `":0000"` of P1. -/
def payload : Vector Byte 5 := #v[0x3A, 0x30, 0x30, 0x30, 0x30]

/-- The valid Init frame of P1. -/
def initFrame : Frame := #v[0x02, 0x00, 0xBA, 0xD2, 0x6B, 0x83, 0xFE, 0x2F]

/-- What the invariant asks, bit by bit where a check can decide it. -/
theorem inv_of_checks {s : State}
    (h1 : s.ctx.segmentTotal = noTotal ∨ (1 ≤ s.ctx.segmentTotal.toNat ∧ s.ctx.segmentTotal.toNat ≤ 9))
    (h2 : ∀ i < 9, knownTotal s.ctx ≤ i → s.ctx.segmentsReceived.getLsbD i = false)
    (h3 : ∀ p (h : p < 45), s.ctx.segmentsReceived.getLsbD (p / 5) = false → s.ctx.lineBuf[p] = padByte)
    (h4 : (transferState s.ctx).isSome)
    (h5 : s.ctx.complete = true → fileCrcMatches s.ctx = true ∧ s.ctx.inProgress = false)
    (h6 : s.ctx.initError = true → s.ctx.newInitPending = true)
    (h7 : s.ctx.baseAddress.toNat ≤ 0xFFFF0000 ∧ s.ctx.baseAddress.toNat % 16 = 0)
    (h8 : s.ctx.expectedLines.toNat ≤ 0x7FFF)
    (h9 : s.ctx.currentLineIndex.toNat ≤ 0x8000 ∧
      (s.ctx.currentLineIndex.toNat = 0x8000 → s.ctx.segmentTotal = noTotal))
    (h10 : Memory.wf s.stage = true) : Inv s where
  totalLegal := h1
  bitsBelowTotal i hk := by
    rcases Nat.lt_or_ge i 9 with h | h
    · exact h2 i h hk
    · exact BitVec.getLsbD_of_ge _ _ h
  emptySlots := h3
  flagsLegal := h4
  completeMatches := h5
  errorPending := h6
  baseRange := h7
  linesRange := h8
  indexRange := h9
  stageWf := h10

theorem inv_receiving : Inv receiving := by apply inv_of_checks <;> decide +kernel

theorem inv_lineReady : Inv (lineReady eofText) := by apply inv_of_checks <;> decide +kernel

theorem inv_completed : Inv completed := by apply inv_of_checks <;> decide +kernel

/-! ### Ill-formed terms are refused -/

/-- 17 data bytes (43_hex_line R207). -/
theorem test_wf_byte_count : wellFormed (.recData ⟨17#8, 0#16, dataArray [], 0xEF#8⟩) = false := by decide

/-- Data past the byte count (43_hex_line R215). -/
theorem test_wf_tail : wellFormed (.recEof ⟨0#8, 0#16, dataArray [1], 0xFF#8⟩) = false := by decide

/-- A checksum that does not close the sum (43_hex_line R210). -/
theorem test_wf_checksum : wellFormed (.recEof (bare 0xFE#8)) = false := by decide

theorem test_wf_good : wellFormed (.recEof (bare 0xFF#8)) = true := by decide

/-! ### Written-out words (30_encoding; 95_test_vectors sections 2, 3, 5 and 6) -/

theorem test_decode_init : decode cfg ⟨.frame, [0x06, 0x00, 0xEF, 0xBE, 0xAD, 0xDE, 0xBD, 0xFD]⟩ =
    .ok (.init 3#15 0xDEADBEEF#32 0xFDBD#16) := by decide +kernel

theorem test_decode_seg : decode cfg ⟨.frame, [0x47, 0x02, 0x92, 0x41, 0x42, 0x43, 0x44, 0x45]⟩ =
    .ok (.seg 0x0123#15 2#4 9#4 #v[0x41, 0x42, 0x43, 0x44, 0x45]) := by decide +kernel

/-- `":0400100001020304E2"`. -/
theorem test_decode_rec_data : decode cfg ⟨.record, [0x3A, 0x30, 0x34, 0x30, 0x30, 0x31, 0x30, 0x30, 0x30, 0x30, 0x31,
    0x30, 0x32, 0x30, 0x33, 0x30, 0x34, 0x45, 0x32]⟩ =
    .ok (.recData ⟨4#8, 0x0010#16, dataArray [1, 2, 3, 4], 0xE2#8⟩) := by decide +kernel

theorem test_decode_rec_eof : decode cfg ⟨.record, eofText⟩ = .ok (.recEof (bare 0xFF#8)) := by decide +kernel

theorem test_decode_rec_esa : decode cfg ⟨.record, esaText⟩ = .ok (.recEsa esaRecord) := by decide +kernel

/-- `":0400000300003800C1"`. -/
theorem test_decode_rec_ssa : decode cfg ⟨.record, [0x3A, 0x30, 0x34, 0x30, 0x30, 0x30, 0x30, 0x30, 0x33, 0x30, 0x30,
    0x30, 0x30, 0x33, 0x38, 0x30, 0x30, 0x43, 0x31]⟩ =
    .ok (.recSsa ⟨4#8, 0#16, dataArray [0, 0, 0x38, 0], 0xC1#8⟩) := by decide +kernel

/-- `":0200000460009A"`. -/
theorem test_decode_rec_ela : decode cfg ⟨.record, [0x3A, 0x30, 0x32, 0x30, 0x30, 0x30, 0x30, 0x30, 0x34, 0x36, 0x30,
    0x30, 0x30, 0x39, 0x41]⟩ = .ok (.recEla ⟨2#8, 0#16, dataArray [0x60, 0], 0x9A#8⟩) := by decide +kernel

/-- `":04000005000000CD2A"`. -/
theorem test_decode_rec_sla : decode cfg ⟨.record, [0x3A, 0x30, 0x34, 0x30, 0x30, 0x30, 0x30, 0x30, 0x35, 0x30, 0x30,
    0x30, 0x30, 0x30, 0x30, 0x43, 0x44, 0x32, 0x41]⟩ =
    .ok (.recSla ⟨4#8, 0#16, dataArray [0, 0, 0, 0xCD], 0x2A#8⟩) := by decide +kernel

/-- Codes 0 to 3 in byte 0 (30_encoding R108, R109). -/
theorem test_decode_responses : [0, 1, 2, 3].map (fun c => decode cfg ⟨.response, [c, 0, 0, 0, 0, 0, 0, 0]⟩) =
    [.ok .rspNone, .ok .rspSendLine, .ok .rspTransferComplete, .ok .rspError] := by decide +kernel

/-- Refused by name: code 4 (R109), record type 6 (R112; section 3 row 5), seven bytes. -/
theorem test_decode_refuses :
    decode cfg ⟨.response, [4, 0, 0, 0, 0, 0, 0, 0]⟩ = .error .noResponseCode ∧
    decode cfg ⟨.record, [0x3A, 0x30, 0x30, 0x30, 0x30, 0x30, 0x30, 0x30, 0x36, 0x46, 0x41]⟩ =
      .error .lineParseError ∧
    decode cfg ⟨.frame, [0, 0, 0, 0, 0, 0, 0]⟩ = .error .notEightBytes := by decide +kernel

/-! ### Single operations (95_test_vectors) -/

/-- Section 2.1 and 2.2. -/
theorem test_crc32 : crcStep 0xFFFFFFFF#32 0x31#8 = 0x7C231048#32 ∧
    after (exec (.crc32 eofText) idle) (fun t => t.out.ret) = some (.word 0x836BD2BA#32) := by decide +kernel

/-- Section 2.2: two updates from reset. -/
theorem test_crc32Upd : after (exec (.crc32Upd eofText) { idle with ctx.fileCrcReg := 0xC3950C62#32 })
    (fun t => t.out.ret) = some (.word 0x71BC147B#32) := by decide +kernel

/-- Rule R162's example. -/
theorem test_unpackInit : after (exec (.unpackInit initFrame) idle) (fun t => t.out.ret) =
    some (.initFields ⟨1#16, 0x836BD2BA#32, 0x2FFE#16, 0x2FFE#16⟩) := by decide +kernel

/-- Rule R164's example. -/
theorem test_packInit : after (exec (.packInit 3#15 0xDEADBEEF#32 0xFDBD#16) idle) (fun t => t.out.ret) =
    some (.frame #v[0x06, 0x00, 0xEF, 0xBE, 0xAD, 0xDE, 0xBD, 0xFD]) := by decide +kernel

/-- Rule R166's example. -/
theorem test_unpackSeg : after (exec (.unpackSeg #v[0x47, 0x02, 0x92, 0x41, 0x42, 0x43, 0x44, 0x45]) idle)
    (fun t => t.out.ret) = some (.segFields ⟨0x0123#16, 2#8, 9#8, #v[0x41, 0x42, 0x43, 0x44, 0x45]⟩) := by
  decide +kernel

/-- Rule R168's example. -/
theorem test_packSeg : after (exec (.packSeg 0x7FFF#15 15#4 15#4 #v[0xAA, 0xBB, 0xCC, 0xDD, 0xEE]) idle)
    (fun t => t.out.ret) = some (.frame #v[0xFF, 0xFF, 0xFF, 0xAA, 0xBB, 0xCC, 0xDD, 0xEE]) := by decide +kernel

/-- Section 3 row 10: lower case counts, or not. -/
theorem test_parseLine : (parseLineBuf true (lineOf eofLower)).valid = true ∧
    (parseLineBuf false (lineOf eofLower)).valid = false := by decide +kernel

/-- `":0200000212G0EA"`: the second pair is not hex, the first is decoded (worked out from 43_hex_line R204). -/
def badPairText : List Byte :=
  [0x3A, 0x30, 0x32, 0x30, 0x30, 0x30, 0x30, 0x30, 0x32, 0x31, 0x32, 0x47, 0x30, 0x45, 0x41]

/-- `":02000002127700"`: both bytes are decoded, the checksum is wrong (worked out from 43_hex_line R204). -/
def badSumText : List Byte :=
  [0x3A, 0x30, 0x32, 0x30, 0x30, 0x30, 0x30, 0x30, 0x32, 0x31, 0x32, 0x37, 0x37, 0x30, 0x30]

theorem test_parseLine_invalid_data :
    (parseLineBuf true (lineOf badPairText)).record.data = #v[0x12, 0, 0, 0, 0, 0, 0, 0, 0, 0, 0, 0, 0, 0, 0, 0] ∧
    (parseLineBuf true (lineOf badSumText)).record.data = #v[0x12, 0x77, 0, 0, 0, 0, 0, 0, 0, 0, 0, 0, 0, 0, 0, 0] := by
  decide +kernel

/-- P1 step 1. -/
theorem test_init : after (exec (.init 1#15 0x836BD2BA#32 0x2FFE#16) { idle with now := 1000#32 })
    (fun t => (t.ctx.inProgress, t.ctx.expectedLines, t.ctx.newInitPending, t.ctx.lastFrameMs)) =
    some (true, 1#16, true, 1000#32) := by decide +kernel

/-- Section 2.3: `80 00 ..` is a bad Init, not a Segment. -/
theorem test_opFrame_bad_init : after (exec (.opFrame #v[0x80, 0, 0, 0, 0, 0, 0, 0] 6#32) idle)
    (fun t => (t.out.raised, t.ctx.initError, t.ctx.inProgress)) = some ([.initChecksumError], true, false) := by
  decide +kernel

/-- Section 4, "Further": the highest slot. -/
theorem test_seg : after (exec (.seg 0#15 8#4 9#4 #v[0x31, 0x32, 0x33, 0x34, 0x35]) receiving)
    (fun t => (t.ctx.segmentTotal, t.ctx.segmentsReceived, lineByte t.ctx.lineBuf 40, lineByte t.ctx.lineBuf 44)) =
    some (9#8, 0x100#9, 0x31#8, 0x35#8) := by decide +kernel

/-- P1 step 3, through the port. -/
theorem test_opFrame_seg : after (exec (.opFrame #v[0x01, 0x00, 0x30, 0x3A, 0x30, 0x30, 0x30, 0x30] 1010#32) receiving)
    (fun t => (t.ctx.segmentsReceived, lineText t.ctx.lineBuf, t.ctx.lastFrameMs)) =
    some (1#9, [0x3A, 0x30, 0x30, 0x30, 0x30], 1010#32) := by decide +kernel

/-- Section 5, D1. -/
theorem test_recData : after (exec (.recData recordD1) idle)
    (fun t => (t.out.ret, t.ctx.minAddress, t.ctx.maxAddress, Memory.read t.stage 0x10F0, Memory.read t.stage 0x10FF)) =
    some (.bool true, 0x10F0#32, 0x1100#32, some 0#8, some 15#8) := by decide +kernel

/-- Section 5, D2. -/
theorem test_recData_out : after (exec (.recData recordD2) idle)
    (fun t => (t.out.ret, t.out.raised, t.ctx.maxAddress, t.stage)) =
    some (.bool false, [.addressOutOfRange], 0x1101#32, []) := by decide +kernel

/-- Section 5, E4: no wrap-around of `expected_lines = 0`. -/
theorem test_recEof : after (exec (.recEof (bare 0xFF#8)) idle) (fun t => (t.out.ret, t.ctx.eofReceived)) =
    some (.bool false, false) := by decide +kernel

/-- Section 5, A1. -/
theorem test_recEsa : after (exec (.recEsa esaRecord) idle) (fun t => t.ctx.baseAddress) = some 0x12000#32 := by
  decide +kernel

/-- Section 5, A5. -/
theorem test_recEla : after (exec (.recEla ⟨2#8, 0#16, dataArray [0xFF, 0xFF], 0xFC#8⟩) idle)
    (fun t => t.ctx.baseAddress) = some 0xFFFF0000#32 := by decide +kernel

/-- Section 5, A7 and A8. -/
theorem test_start_addresses : after (exec (.recSsa (bare 0xFD#8)) receiving) (fun t => t.ctx) = some receiving.ctx ∧
    after (exec (.recSla (bare 0xFB#8)) receiving) (fun t => t.ctx) = some receiving.ctx := by decide +kernel

/-- Section 6, T4. -/
theorem test_responses : [Instr.rspNone, .rspSendLine, .rspTransferComplete, .rspError].map
      (fun i => after (exec i idle) (fun t => t.out.sent)) =
    [some none, some (some #v[1, 0, 0, 0, 0, 0, 0, 0]), some (some #v[2, 0, 0, 0, 0, 0, 0, 0]),
      some (some #v[3, 0, 0, 0, 0, 0, 0, 0])] := by decide +kernel

/-- P1 step 6: the EOF line is accepted at the last line. -/
theorem test_opTick_line : after (exec (.opTick 110#32) { lineReady eofText with ctx.expectedLines := 1#16 })
    (fun t => (t.out.ret, t.ctx.eofReceived, t.ctx.fileCrcReg, t.ctx.segmentTotal)) =
    some (.response .sendLine 1#16, true, 0x7C942D45#32, noTotal) := by decide +kernel

/-- P1 step 7: the gate. -/
theorem test_opTick_gate : after (exec (.opTick 1021#32) completing)
    (fun t => (t.out.ret, t.ctx.complete, t.ctx.inProgress)) =
    some (.response .transferComplete 1#16, true, false) := by decide +kernel

/-- Section 6, T5. -/
theorem test_reset_abort : after (exec .opReset completed) (fun t => t.ctx) = some Context.reset ∧
    after (exec .opAbort (lineReady eofText)) (fun t => t.ctx) = some Context.reset := by decide +kernel

/-- P1's end: `Q_IN_PROGRESS = 0`, `Q_COMPLETE = 1`. -/
theorem test_queries : after (exec .qInProgress completed) (fun t => t.out.ret) = some (.bool false) ∧
    after (exec .qComplete completed) (fun t => t.out.ret) = some (.bool true) := by decide +kernel

/-- The words of the opcode table: a record type, a Segment frame and an Init frame. -/
theorem test_table_words : decodeTableWord 8 1 = some (.recEof (bare 0xFF#8)) ∧
    decodeTableWord 64 1 = some (.seg 0#15 0#4 0#4 #v[0, 0, 0, 0, 0]) ∧
    decodeTableWord 64 0x2FFE836BD2BA0002 = some (.init 1#15 0x836BD2BA#32 0x2FFE#16) := by decide +kernel

/-- The first step after reset with a word presented: `REC_ESA`, then a valid Init. -/
theorem test_first_step :
    after (step (State.reset.withFetchWord 8 2)) (fun t => (t.out.ret, t.ctx.currentLineIndex)) =
      some (.response .sendLine 1#16, 1#16) ∧
    after (step (State.reset.withFetchWord 64 0x2FFE836BD2BA0002)) (fun t => t.ctx.inProgress) = some true := by
  decide +kernel

/-! ### Witnesses: the hypotheses of each statement can be met -/

theorem witness_EncodedInstructionDecodesBack :
    (wellFormed (.recEsa esaRecord) = true ∧ encode cfg (.recEsa esaRecord) = some ⟨.record, esaText⟩) ∧
    (wellFormed (.init 0x7FFF#15 0#32 0#16) = true ∧ encode cfg (.init 0x7FFF#15 0#32 0#16) =
      some ⟨.frame, [0xFE, 0xFF, 0, 0, 0, 0, 0, 0]⟩) := by decide +kernel

/-- Types 0 and 5 are the ends of the range; a lower-case line where it counts. -/
theorem witness_ValidLinesAreRecordTexts :
    (0#8 ≤ 5#8 ∧ recordWellFormed 0#8 recordD1 = true ∧
      (lineText (lineOf (recordText 0#8 recordD1))).map (foldCase false) = recordText 0#8 recordD1) ∧
    (5#8 ≤ 5#8 ∧ recordWellFormed 5#8 (bare 0xFB#8) = true ∧
      (lineText (lineOf slaText)).map (foldCase false) = recordText 5#8 (bare 0xFB#8)) ∧
    (lineText (lineOf eofLower)).map (foldCase true) = recordText 1#8 (bare 0xFF#8) ∧
    (parseLineBuf true (lineOf eofLower)).valid = true := by decide +kernel

theorem witness_ParseLineFindsTheRecord :
    (1#8 ≤ 5#8 ∧ recordWellFormed 1#8 (bare 0xFF#8) = true ∧
      (lineText (lineReady eofText).ctx.lineBuf).map (foldCase (lineReady eofText).cfg.hexAcceptLower) =
        recordText 1#8 (bare 0xFF#8)) ∧
    (∀ (ty : Byte) (r : HexRecord), ty ≤ 5#8 → recordWellFormed ty r = true →
      (lineText idle.ctx.lineBuf).map (foldCase idle.cfg.hexAcceptLower) ≠ recordText ty r) := by
  refine ⟨by decide +kernel, fun ty r _ _ h => ?_⟩
  rw [show lineText idle.ctx.lineBuf = [] by decide +kernel] at h
  cases h

theorem witness_BytesAfterThePadAreIgnored :
    lineText (lineOf (eofText ++ [0xFF, 0x41])) = lineText (lineReady eofText).ctx.lineBuf ∧
      lineOf (eofText ++ [0xFF, 0x41]) ≠ (lineReady eofText).ctx.lineBuf := by decide +kernel

theorem witness_StepCarriesOutTheRequest :
    idle.port = [] ∧ (asked .qComplete idle).port = ⟨.qComplete, 0⟩ :: [] := by decide +kernel

theorem witness_StepRunsTheDecodedFrame :
    (asked (.frame initFrame 5#32) idle).port = ⟨.frame initFrame 5#32, 0⟩ :: [] ∧
      decode cfg ⟨.frame, initFrame.toList⟩ = .ok (.init 1#15 0x836BD2BA#32 0x2FFE#16) ∧
      wellFormed (.init 1#15 0x836BD2BA#32 0x2FFE#16) = true := by decide +kernel

theorem finalises_lineReady (text : List Byte) : FinalisesAt 110#32 (lineReady text) := by
  refine ⟨rfl, ?_, ?_, rfl⟩
  · show decide (cfg.tTransferMs < 110#32 - 100#32) = false
    decide
  · show (decide (9#8 ≠ noTotal) && (List.range 9).all fun i => (0x1FF#9).getLsbD i) = true
    decide +kernel

theorem witness_TickRunsTheRecordOfTheLine :
    FinalisesAt 110#32 (lineReady esaText) ∧
      parseLineBuf cfg.hexAcceptLower (lineReady esaText).ctx.lineBuf = ⟨true, 2#8, esaRecord⟩ ∧
      recordInstr 2#8 esaRecord = some (.recEsa esaRecord) :=
  ⟨finalises_lineReady _, by decide +kernel, rfl⟩

theorem witness_ResetAndAbortLeaveTheResetValues :
    (Instr.opReset = .opReset ∨ Instr.opReset = .opAbort) ∧ (Instr.opAbort = .opReset ∨ Instr.opAbort = .opAbort) :=
  ⟨.inl rfl, .inr rfl⟩

theorem witness_ValidInitStartsATransfer :
    0x2FFE#16 = low16 (crc32Of ((packInitFrame 1#15 0x836BD2BA#32 0x2FFE#16).toList.take 6)) := by decide +kernel

theorem witness_BadInitOnlySetsItsFlags :
    0x2EFE#16 ≠ low16 (crc32Of ((packInitFrame 1#15 0x836BD2BA#32 0x2EFE#16).toList.take 6)) := by decide +kernel

/-- Totals 1 and 9 with their last segments, the total adopted now or before. -/
theorem witness_AcceptedSegmentIsStored :
    (receiving.ctx.inProgress = true ∧ (0#15).setWidth 16 = receiving.ctx.currentLineIndex ∧ 1#4 ≤ 1#4 ∧ 1#4 ≤ 9#4 ∧
      receiving.ctx.segmentTotal = noTotal ∧ 0#4 < 1#4) ∧
    ((lineReady eofText).ctx.inProgress = true ∧ (0#15).setWidth 16 = (lineReady eofText).ctx.currentLineIndex ∧
      1#4 ≤ 9#4 ∧ 9#4 ≤ 9#4 ∧ (lineReady eofText).ctx.segmentTotal = (9#4).setWidth 8 ∧ 8#4 < 9#4) := by
  decide +kernel

/-- The hypotheses of the two timers' statement are the same. -/
theorem witness_AcceptedSegmentRestartsTheTimers :
    receiving.ctx.inProgress = true ∧ (0#15).setWidth 16 = receiving.ctx.currentLineIndex ∧ 1#4 ≤ 9#4 ∧ 9#4 ≤ 9#4 ∧
      (receiving.ctx.segmentTotal = noTotal ∨ receiving.ctx.segmentTotal = (9#4).setWidth 8) ∧ 8#4 < 9#4 := by
  decide +kernel

theorem witness_SegmentOfAnotherLineIsDropped :
    0x8000#16 ≤ { receiving with ctx.currentLineIndex := 0x8000#16 }.ctx.currentLineIndex ∧
    (receiving.ctx.inProgress = true ∧ (1#15).setWidth 16 ≠ receiving.ctx.currentLineIndex) := by decide +kernel

/-- Totals 0, 10 and 15 where none is adopted, 8 where 9 is. -/
theorem witness_SegmentCountMismatchIsDropped :
    (receiving.ctx.inProgress = true ∧ (0#15).setWidth 16 = receiving.ctx.currentLineIndex ∧
      receiving.ctx.segmentTotal = noTotal ∧ (0#4 = 0#4 ∨ 10#4 ≤ 0#4) ∧ (10#4 = 0#4 ∨ 10#4 ≤ 10#4) ∧
      (15#4 = 0#4 ∨ 10#4 ≤ 15#4)) ∧
    ((lineReady []).ctx.inProgress = true ∧ (0#15).setWidth 16 = (lineReady []).ctx.currentLineIndex ∧
      (lineReady []).ctx.segmentTotal ≠ noTotal ∧ (8#4).setWidth 8 ≠ (lineReady []).ctx.segmentTotal) := by
  decide +kernel

/-- Index equal to the total, at totals 1 and 9; and where 9 is adopted. -/
theorem witness_SegmentIndexPastTheTotalIsDropped :
    (receiving.ctx.inProgress = true ∧ (0#15).setWidth 16 = receiving.ctx.currentLineIndex ∧ 1#4 ≤ 1#4 ∧ 9#4 ≤ 9#4 ∧
      receiving.ctx.segmentTotal = noTotal ∧ 1#4 ≤ 9#4) ∧
    ((lineReady []).ctx.inProgress = true ∧ (0#15).setWidth 16 = (lineReady []).ctx.currentLineIndex ∧ 9#4 ≤ 9#4 ∧
      (lineReady []).ctx.segmentTotal ≠ noTotal ∧ (lineReady []).ctx.segmentTotal = (9#4).setWidth 8) := by
  decide +kernel

theorem witness_SegmentWhileIdleIsIgnored : idle.ctx.inProgress = false := rfl

theorem witness_RepeatedSegmentOverwritesItsSlot :
    (receiving.ctx.inProgress = true ∧ (0#15).setWidth 16 = receiving.ctx.currentLineIndex ∧ 1#4 ≤ 3#4 ∧ 3#4 ≤ 9#4 ∧
      (receiving.ctx.segmentTotal = noTotal ∨ receiving.ctx.segmentTotal = (3#4).setWidth 8) ∧ 0#4 < 3#4) ∧
    ∃ t, exec (.seg 0#15 0#4 3#4 payload) receiving = .next t :=
  ⟨by decide +kernel, _, rfl⟩

/-- The segments of a line of three in the order 2, 0, 2, 1. -/
theorem witness_SegmentsInAnyOrderBuildTheLine :
    receiving.ctx.inProgress = true ∧ (0#15).setWidth 16 = receiving.ctx.currentLineIndex ∧ 1#4 ≤ 3#4 ∧ 3#4 ≤ 9#4 ∧
      receiving.ctx.segmentTotal = noTotal ∧ receiving.ctx.lineBuf = padLine ∧
      (∀ j ∈ [2#4, 0#4, 2#4, 1#4], j < 3#4) ∧ (∀ j, j < 3#4 → j ∈ [2#4, 0#4, 2#4, 1#4]) := by decide +kernel

/-- D1 in flash, and D9's copy with a primitive that would fail. -/
theorem witness_DataRecordWritesItsBytes :
    (recordD1.byteCount ≤ 16#8 ∧ endAddress idle.ctx recordD1 ≤ windowEnd idle.cfg ∧ idle.cfg.dryRun = false ∧
      (inFlash idle.cfg idle.cfg.flashBufferBase = true → idle.flashReply = 0)) ∧
    (let s : State := { idle with cfg.flashRegions := [], flashReply := 5 }
     recordD1.byteCount ≤ 16#8 ∧ endAddress s.ctx recordD1 ≤ windowEnd s.cfg ∧ s.cfg.dryRun = false ∧
      (inFlash s.cfg s.cfg.flashBufferBase = true → s.flashReply = 0)) := by decide +kernel

/-- D2 is one past the window's end; D7 ends on it. -/
theorem witness_DataRecordLeavesStageAlone :
    windowEnd idle.cfg < endAddress idle.ctx recordD2 ∧
    (let s : State := { idle with cfg.dryRun := true }
     endAddress s.ctx recordD1 ≤ windowEnd s.cfg ∧ s.cfg.dryRun = true) := by decide +kernel

/-- D6. -/
theorem witness_FailedFlashWriteRejectsTheRecord :
    let s : State := { idle with flashReply := 5 }
    recordD1.byteCount ≤ 16#8 ∧ endAddress s.ctx recordD1 ≤ windowEnd s.cfg ∧ s.cfg.dryRun = false ∧
      inFlash s.cfg s.cfg.flashBufferBase = true ∧ s.flashReply ≠ 0 := by decide +kernel

theorem witness_StagedBytesStayInTheWindow :
    (idle.cfg.flashBaseAddr = idle.cfg.flashBufferBase ∧
      idle.cfg.flashBufferBase ≤ imageAddress idle.ctx recordD1 ∧ windowEnd idle.cfg ≤ 2 ^ 32) ∧
    (∃ t, exec (.recData recordD1) idle = .next t) ∧ ¬ InWindow idle.cfg 0x1100 :=
  ⟨by decide +kernel, ⟨_, rfl⟩, fun h => absurd h.2 (by decide +kernel)⟩

/-- A6 has no data byte, A3 one. -/
theorem witness_SegmentAddressRecordSetsTheBase :
    (wellFormed (.recEsa (bare 0xFE#8)) = true ∧ (bare 0xFE#8).byteCount = 0#8) ∧
    (wellFormed (.recEsa ⟨1#8, 0#16, dataArray [0x12], 0xEB#8⟩) = true ∧
      (⟨1#8, 0#16, dataArray [0x12], 0xEB#8⟩ : HexRecord).byteCount = 1#8) := by decide +kernel

theorem witness_LinearAddressRecordSetsTheBase :
    (wellFormed (.recEla (bare 0xFC#8)) = true ∧ (bare 0xFC#8).byteCount = 0#8) ∧
    (wellFormed (.recEla ⟨1#8, 0#16, dataArray [0x60], 0x9B#8⟩) = true ∧
      (⟨1#8, 0#16, dataArray [0x60], 0x9B#8⟩ : HexRecord).byteCount = 1#8) := by decide +kernel

theorem witness_StartAddressRecordsAreIgnored :
    parseLineBuf cfg.hexAcceptLower (lineReady ssaText).ctx.lineBuf = ⟨true, 3#8, bare 0xFD#8⟩ ∧
    parseLineBuf cfg.hexAcceptLower (lineReady slaText).ctx.lineBuf = ⟨true, 5#8, bare 0xFB#8⟩ := by decide +kernel

theorem witness_ResponsesAreEmitted :
    (Instr.rspSendLine = .rspSendLine ∧ ResponseCode.sendLine = .sendLine ∧ 1#8 = 1#8) ∧
    (Instr.rspTransferComplete = .rspTransferComplete ∧ ResponseCode.transferComplete = .transferComplete ∧
      2#8 = 2#8) ∧
    (Instr.rspError = .rspError ∧ ResponseCode.error = .error ∧ 3#8 = 3#8) := by decide

theorem witness_InProgressQueryReadsTheFlag :
    (Inv receiving ∧ receiving.ctx.inProgress = true) ∧ (Inv completed ∧ completed.ctx.inProgress = false) :=
  ⟨⟨inv_receiving, rfl⟩, inv_completed, rfl⟩

/-- A tick, a reset, an abort and a valid Init frame as the next request of a completed transfer. -/
theorem witness_CompleteQueryReadsTheFlag (op : PortOp) (h : op = .tick 2000#32 ∨ op = .reset ∨ op = .abort ∨
    op = .frame initFrame 2000#32) :
    Inv (asked op completed) ∧ (asked op completed).ctx.complete = true ∧
      (asked op completed).port = ⟨op, 0⟩ :: [] ∧ ∃ t, step (asked op completed) = .next t := by
  refine ⟨?_, rfl, rfl, ?_⟩
  · obtain ⟨h1, h2, h3, h4, h5, h6, h7, h8, h9, h10⟩ := inv_completed
    exact ⟨h1, h2, h3, h4, h5, h6, h7, h8, h9, h10⟩
  · rcases h with rfl | rfl | rfl | rfl <;> exact ⟨_, rfl⟩

theorem witness_IdleTickIsSilent :
    (idle.ctx.inProgress = false ∧ idle.cfg.idleBadInitReport = false) ∧
    (let s : State := { idle with cfg.idleBadInitReport := true, ctx.newInitPending := true, ctx.initError := true }
     s.ctx.inProgress = false ∧ s.cfg.idleBadInitReport = true ∧ s.ctx.newInitPending = true ∧
      s.ctx.initError = true) := by decide +kernel

/-- 15001 ms after the last frame, across the wrap of the clock (section 6, T1). -/
theorem witness_InactivityTimeoutAborts :
    let s : State := { receiving with ctx.lastFrameMs := 0xFFFFFF00#32 }
    s.ctx.inProgress = true ∧
      s.cfg.tTransferMs.toNat < ((14745#32).toNat + (2 ^ 32 - s.ctx.lastFrameMs.toNat)) % 2 ^ 32 := by decide +kernel

/-- 5001 ms and 15000 ms after the last frame. -/
theorem witness_SegmentTimeoutAsksAgain :
    receiving.ctx.inProgress = true ∧ ready receiving.ctx = false ∧
      (receiving.cfg.tSegmentMs.toNat < ((5101#32).toNat + (2 ^ 32 - receiving.ctx.lastFrameMs.toNat)) % 2 ^ 32 ∧
        ((5101#32).toNat + (2 ^ 32 - receiving.ctx.lastFrameMs.toNat)) % 2 ^ 32 ≤ receiving.cfg.tTransferMs.toNat) ∧
      (receiving.cfg.tSegmentMs.toNat < ((15100#32).toNat + (2 ^ 32 - receiving.ctx.lastFrameMs.toNat)) % 2 ^ 32 ∧
        ((15100#32).toNat + (2 ^ 32 - receiving.ctx.lastFrameMs.toNat)) % 2 ^ 32 ≤ receiving.cfg.tTransferMs.toNat) := by
  decide +kernel

theorem witness_PendingInitIsReported :
    let s : State := { receiving with ctx.newInitPending := true }
    s.ctx.inProgress = true ∧ transferTimedOut s.cfg 101#32 s.ctx = false ∧
      segmentTimedOut s.cfg 101#32 s.ctx = false ∧ s.ctx.newInitPending = true := by decide +kernel

theorem witness_InvalidLineIsAskedForAgain :
    FinalisesAt 110#32 (lineReady []) ∧
      (parseLineBuf cfg.hexAcceptLower (lineReady []).ctx.lineBuf).valid = false :=
  ⟨finalises_lineReady _, by decide +kernel⟩

/-- P1 step 7, and a file CRC that differs in one bit. -/
theorem witness_FileCrcGateDecides :
    (completing.ctx.inProgress = true ∧ transferTimedOut completing.cfg 1021#32 completing.ctx = false ∧
      segmentTimedOut completing.cfg 1021#32 completing.ctx = false ∧ completing.ctx.newInitPending = false ∧
      ready completing.ctx = false ∧ completing.ctx.eofReceived = true ∧
      completing.ctx.fileCrcReg ^^^ 0xFFFFFFFF#32 = completing.ctx.expectedFileCrc32) ∧
    (let s : State := { completing with ctx.fileCrcReg := 0x7C942D44#32 }
     s.ctx.inProgress = true ∧ transferTimedOut s.cfg 1021#32 s.ctx = false ∧
      segmentTimedOut s.cfg 1021#32 s.ctx = false ∧ s.ctx.newInitPending = false ∧ ready s.ctx = false ∧
      s.ctx.eofReceived = true ∧ s.ctx.fileCrcReg ^^^ 0xFFFFFFFF#32 ≠ s.ctx.expectedFileCrc32) := by decide +kernel

theorem witness_OneResponseATickAndNoOther :
    ((∀ now, PortOp.qComplete ≠ .tick now) ∧ ∃ t, exec PortOp.qComplete.instr idle = .next t) ∧
    (receiving.ctx.inProgress = true ∧ transferTimedOut receiving.cfg 101#32 receiving.ctx = false ∧
      segmentTimedOut receiving.cfg 101#32 receiving.ctx = false ∧ receiving.ctx.newInitPending = false ∧
      ready receiving.ctx = false ∧ receiving.ctx.eofReceived = false) :=
  ⟨⟨nofun, _, rfl⟩, by decide +kernel⟩

theorem witness_ReadyMeansEveryBitIsSet :
    (Inv (lineReady eofText) ∧ ready (lineReady eofText).ctx = true) ∧
      (Inv receiving ∧ ready receiving.ctx = false) :=
  ⟨⟨inv_lineReady, by decide +kernel⟩, inv_receiving, by decide +kernel⟩

theorem witness_OneShotCrcAgreesWithTheRunningOne : idle.ctx.fileCrcReg = 0xFFFFFFFF#32 := rfl

theorem witness_FileCrcCoversTheAcceptedText :
    FinalisesAt 110#32 (lineReady esaText) ∧ computedFileCrc32 (lineReady esaText).ctx = crc32Of [] :=
  ⟨finalises_lineReady _, by decide +kernel⟩

theorem witness_EveryStepKeepsTheInvariant : Inv receiving ∧ ∃ t, step receiving = .next t :=
  ⟨inv_receiving, _, rfl⟩

theorem witness_NoRequestStopsTheMachine : Inv receiving := inv_receiving

theorem witness_NoOperationWritesTheParameters : ∃ t, exec (.recEsa esaRecord) idle = .next t := ⟨_, rfl⟩

theorem witness_StageContentIsNeverRead : ∃ t, exec (.recData recordD1) idle = .next t := ⟨_, rfl⟩

/-- A tick that writes `STAGE[0x1000]`: `":01100000AA45"` (worked out from 43_hex_line R210). -/
theorem witness_OnlyLineFinalisationWritesStage :
    ∃ t, step (asked (.tick 110#32) (lineReady [0x3A, 0x30, 0x31, 0x31, 0x30, 0x30, 0x30, 0x30, 0x30, 0x41, 0x41, 0x34,
      0x35])) = .next t ∧ Memory.read t.stage 0x1000 ≠ Memory.read [] 0x1000 :=
  ⟨_, rfl, by decide +kernel⟩

theorem witness_LineIndexAdvancesByOneOrRestarts :
    (∃ t, step (asked (.tick 110#32) (lineReady esaText)) = .next t ∧ t.ctx.currentLineIndex = 1#16) ∧
    (∃ t, step (asked .abort completing) = .next t ∧ t.ctx = Context.reset) ∧
    (∃ t, step (asked (.frame initFrame 7#32) completing) = .next t ∧ t.ctx.expectedLines = 1#16 ∧
      t.ctx.currentLineIndex = 0#16) :=
  ⟨⟨_, rfl, by decide +kernel⟩, ⟨_, rfl, rfl⟩, _, rfl, by decide +kernel, by decide +kernel⟩

theorem witness_OnlyTheGateCompletesATransfer :
    ∃ t, step (asked (.tick 1021#32) completing) = .next t ∧ completing.ctx.complete = false ∧
      t.ctx.complete = true :=
  ⟨_, rfl, rfl, by decide +kernel⟩

/-- A terminal error, and one that is not. -/
theorem witness_OnlyTwoErrorsAreTerminal :
    (∃ t, step (asked (.tick 15101#32) receiving) = .next t ∧ ErrorKind.inactivityTimeout ∈ t.out.raised) ∧
    (∃ t, step (asked (.tick 110#32) (lineReady [])) = .next t ∧ ErrorKind.lineParseError ∈ t.out.raised) :=
  ⟨⟨_, rfl, by decide +kernel⟩, _, rfl, by decide +kernel⟩

/-- A line that fails in its data, and one that fails before it. -/
theorem witness_InvalidResultHoldsTheDecodedBytes :
    ((parseLineBuf cfg.hexAcceptLower (lineReady badPairText).ctx.lineBuf).valid = false ∧
      DataReached cfg.hexAcceptLower (lineReady badPairText).ctx.lineBuf 2#8) ∧
    (parseLineBuf cfg.hexAcceptLower (lineReady []).ctx.lineBuf).valid = false ∧
      ∀ bc, ¬ DataReached cfg.hexAcceptLower (lineReady []).ctx.lineBuf bc :=
  ⟨⟨by decide +kernel, by decide +kernel, by decide +kernel, by decide +kernel, by decide +kernel, by decide +kernel,
      by decide +kernel, 2#8, by decide +kernel, by decide +kernel⟩, by decide +kernel,
    fun _ d => absurd d.long (by decide +kernel)⟩

end Sys2Proof.Tests
end

section
/-! The parameters, the requests still to come and the flash primitive's answer stay through every operation (10_state
R37). What each part of the model can do is said once in the laws; here it is read off for the environment, and the
operations follow constructor by constructor. -/

namespace Sys2Proof.Machine

/-- An operation that answers a state with the environment of `s` leaves the environment of `s`. -/
theorem envUnchanged_of_next {s u t : State} (h : (.next u : Host.Outcome State Fault Refusal) = .next t)
    (hu : EnvUnchanged s u) : EnvUnchanged s t := by
  cases h
  exact hu

theorem envUnchanged_refl (s : State) : EnvUnchanged s s := ⟨rfl, rfl, rfl⟩

/-! ### Frames -/

/-- Neither a valid nor a bad Init frame touches the environment (45_transfer_control R264, R265). -/
theorem processInit_envUnchanged (m : InitFields) (s : State) : EnvUnchanged s (processInit m s) := by
  rcases processInit_cases m s with ⟨-, e⟩ | ⟨-, e⟩ <;> rw [e]
  · exact ⟨rfl, rfl, rfl⟩
  · exact ⟨rfl, rfl, rfl⟩

theorem adoptTotal_envUnchanged {m : SegFields} {s t : State} (h : adoptTotal m s = some t) : EnvUnchanged s t := by
  rcases adoptTotal_spec h with ⟨-, -, -, rfl⟩ | ⟨-, -, rfl⟩
  · exact ⟨rfl, rfl, rfl⟩
  · exact envUnchanged_refl _

/-- A Segment frame that is ignored, dropped or stored leaves the environment (42_segment_reassembly R180). -/
theorem processSegment_envUnchanged {m : SegFields} {s t : State} (h : processSegment m s = .next t) :
    EnvUnchanged s t := by
  rcases processSegment_next h with ⟨-, rfl⟩ | ⟨-, rfl⟩ | ⟨-, -, u, hu, -, rfl⟩ | ⟨-, -, u, hu, -, -, rfl⟩
  · exact envUnchanged_refl _
  · exact ⟨rfl, rfl, rfl⟩
  · exact adoptTotal_envUnchanged (t := u) hu
  · exact adoptTotal_envUnchanged (t := u) hu

theorem exec_opFrame_envUnchanged {buf : Frame} {now : Word} {s t : State} (h : exec (.opFrame buf now) s = .next t) :
    EnvUnchanged s t := by
  rcases exec_opFrame buf now s with ⟨-, e⟩ | ⟨-, e⟩ <;> rw [e] at h
  · exact envUnchanged_of_next h (processInit_envUnchanged _ { s.clearOutputs with now := now })
  · exact processSegment_envUnchanged (s := { s.clearOutputs with now := now }) h

/-! ### Records and ticks -/

theorem HandlerEffect.envUnchanged {r : HexRecord} {s t : State} (e : HandlerEffect r s t) : EnvUnchanged s t :=
  ⟨e.cfg, e.port, e.flashReply⟩

/-- A record operation leaves the environment when its handler does: handing out the handler's result adds no write
(44_record_dispatch R231). -/
theorem handlerOutcome_envUnchanged {r : HexRecord} {p : State × Bool} {s t : State}
    (h : handlerOutcome p = .next t) (e : HandlerEffect r s.clearOutputs p.1) : EnvUnchanged s t :=
  envUnchanged_of_next h e.envUnchanged

theorem finaliseLine_envUnchanged (s : State) : EnvUnchanged s (finaliseLine s) := by
  obtain ⟨hcfg, hport, -, hreply, -⟩ := finaliseLine_env s
  exact ⟨hcfg, hport, hreply⟩

theorem fileCrcGate_envUnchanged (s : State) : EnvUnchanged s (fileCrcGate s) := by
  rcases fileCrcGate_cases s with ⟨-, e⟩ | ⟨-, e⟩ <;> rw [e]
  · exact ⟨rfl, rfl, rfl⟩
  · exact ⟨rfl, rfl, rfl⟩

theorem idleTick_envUnchanged (s : State) : EnvUnchanged s (idleTick s) := by
  unfold idleTick
  split
  · exact ⟨rfl, rfl, rfl⟩
  · exact ⟨rfl, rfl, rfl⟩

/-- None of the seven ends of a tick touches the environment (45_transfer_control R270). -/
theorem tickSteps_envUnchanged (s : State) : EnvUnchanged s (tickSteps s) := by
  rcases tickSteps_cases s with ⟨-, e⟩ | ⟨-, -, e⟩ | ⟨-, -, -, e⟩ | ⟨-, -, -, -, e⟩ | ⟨-, -, -, -, -, e⟩ |
    ⟨-, -, -, -, -, -, e⟩ | ⟨-, -, -, -, -, -, e⟩ <;> rw [e]
  · exact idleTick_envUnchanged s
  · exact ⟨rfl, rfl, rfl⟩
  · exact ⟨rfl, rfl, rfl⟩
  · exact ⟨rfl, rfl, rfl⟩
  · exact finaliseLine_envUnchanged s
  · exact fileCrcGate_envUnchanged s
  · exact ⟨rfl, rfl, rfl⟩

/-- `PARSE_LINE` hands its result back and may name an error, nothing else (43_hex_line R204). -/
theorem exec_parseLine_envUnchanged {s t : State} (h : exec .parseLine s = .next t) : EnvUnchanged s t := by
  refine envUnchanged_of_next h ?_
  split
  · exact ⟨rfl, rfl, rfl⟩
  · exact ⟨rfl, rfl, rfl⟩

/-! ### Every operation -/

/-- No operation writes the parameters, the requests still to come or the flash primitive's answer. -/
theorem exec_envUnchanged {i : Instr} {s t : State} (h : exec i s = .next t) : EnvUnchanged s t := by
  cases i with
  | init lc fc ic => exact envUnchanged_of_next h (processInit_envUnchanged _ s.clearOutputs)
  | seg ln si st p => exact processSegment_envUnchanged (s := s.clearOutputs) h
  | recData r => exact handlerOutcome_envUnchanged h (recordData_effect r s.clearOutputs)
  | recEof r => exact handlerOutcome_envUnchanged h (recordEof_effect r s.clearOutputs)
  | recEsa r => exact handlerOutcome_envUnchanged h (recordEsa_effect r s.clearOutputs)
  | recSsa r => exact handlerOutcome_envUnchanged h (handlerEffect_refl r s.clearOutputs)
  | recEla r => exact handlerOutcome_envUnchanged h (recordEla_effect r s.clearOutputs)
  | recSla r => exact handlerOutcome_envUnchanged h (handlerEffect_refl r s.clearOutputs)
  | opFrame buf now => exact exec_opFrame_envUnchanged h
  | opTick now => exact envUnchanged_of_next h (tickSteps_envUnchanged { s.clearOutputs with now := now })
  | parseLine => exact exec_parseLine_envUnchanged h
  | opReset | opAbort | qInProgress | qComplete => exact envUnchanged_of_next h ⟨rfl, rfl, rfl⟩
  | rspNone | rspSendLine | rspTransferComplete | rspError => exact envUnchanged_of_next h ⟨rfl, rfl, rfl⟩
  | crc32 | crc32Upd | unpackInit | packInit | unpackSeg | packSeg => exact envUnchanged_of_next h ⟨rfl, rfl, rfl⟩

/-- Settles O50: the parameters are part of the environment, which no operation, reset included, writes. -/
theorem noOperationWritesTheParameters : Obligations.NoOperationWritesTheParameters := by
  intro i s t h
  obtain ⟨hcfg, -, -⟩ := exec_envUnchanged h
  exact hcfg

end Sys2Proof.Machine
end

section
/-! Segment reassembly (42_segment_reassembly): what `SEG` answers for a frame that passes the acceptance rules and for
a frame of another line, and what a stored segment leaves in the line and in the received bits. -/

namespace Sys2Proof.Machine

theorem exec_seg (ln : BitVec 15) (si st : BitVec 4) (p : Vector Byte 5) (s : State) :
    exec (.seg ln si st p) s = processSegment (segOperands ln si st p) s.clearOutputs := rfl

/-! ### A stored segment -/

theorem slotAddress_setWidth (si : BitVec 4) : slotAddress (si.setWidth 8) = 5 * si.toNat := by
  rw [slotAddress, nibble_toNat]

/-- The slot of a segment holds its payload, whatever the bytes are (R185). -/
theorem segmentStored_lineByte_slot {m : SegFields} (s : State) (hm : slotAddress m.segmentIndex + 5 ≤ 45) {k : Nat}
    (hk : k < 5) : lineByte (segmentStored m s).ctx.lineBuf (slotAddress m.segmentIndex + k) = m.payload[k] := by
  simp only [segmentStored]
  rw [lineByte_store _ _ _ _ (by simpa using hm), dif_pos (by simpa using hk)]
  simp

/-- Outside the slot of the segment the line reads as before. -/
theorem segmentStored_lineByte_other {m : SegFields} (s : State) (hm : slotAddress m.segmentIndex + 5 ≤ 45) {q : Nat}
    (hq : q < slotAddress m.segmentIndex ∨ slotAddress m.segmentIndex + 5 ≤ q) :
    lineByte (segmentStored m s).ctx.lineBuf q = lineByte s.ctx.lineBuf q := by
  simp only [segmentStored]
  rw [lineByte_store _ _ _ _ (by simpa using hm), dif_neg (by simp; omega)]

/-- A stored segment has its bit set and leaves the other bits (R185). -/
theorem segmentStored_received {m : SegFields} (s : State) (hm : m.segmentIndex < 9#8) (j : Nat) :
    (segmentStored m s).ctx.segmentsReceived.getLsbD j =
      (decide (j = m.segmentIndex.toNat) || s.ctx.segmentsReceived.getLsbD j) :=
  markSegment_getLsbD _ _ _ (by bv_omega)

/-! ### A frame that passes the acceptance rules -/

/-- The state after acceptance rule 2 let a frame with total `n` pass: `n` is the total, and no segment is marked if
it was not known before (R183). -/
def totalAdopted (n : Byte) (s : State) : State :=
  { s with
    ctx.segmentTotal := n
    ctx.segmentsReceived := if s.ctx.segmentTotal = noTotal then 0#9 else s.ctx.segmentsReceived }

theorem totalAdopted_received (n : Byte) (s : State) (j : Nat) :
    (totalAdopted n s).ctx.segmentsReceived.getLsbD j =
      (decide (s.ctx.segmentTotal ≠ noTotal) && s.ctx.segmentsReceived.getLsbD j) := by
  by_cases h : s.ctx.segmentTotal = noTotal <;> simp [totalAdopted, h]

/-- `SEG` on a frame that passes the four acceptance rules (R180, R183, R184, R185). -/
theorem exec_seg_accepted {s : State} {ln : BitVec 15} {si st : BitVec 4} (p : Vector Byte 5)
    (hprog : s.ctx.inProgress = true) (hline : ln.setWidth 16 = s.ctx.currentLineIndex) (hlow : 1#4 ≤ st)
    (hhigh : st ≤ 9#4) (htotal : s.ctx.segmentTotal = noTotal ∨ s.ctx.segmentTotal = st.setWidth 8)
    (hidx : si < st) :
    exec (.seg ln si st p) s =
      .next (segmentStored (segOperands ln si st p) (totalAdopted (st.setWidth 8) s.clearOutputs)) := by
  have hlow' : 1#8 ≤ st.setWidth 8 := by bv_omega
  have hhigh' : st.setWidth 8 ≤ 9#8 := by bv_omega
  have hidx' : si.setWidth 8 < st.setWidth 8 := by bv_omega
  exact processSegment_accepted (m := segOperands ln si st p) (s := s.clearOutputs) hprog hline hlow' hhigh' htotal
    hidx'

/-- Settles O15: the next state is `segmentStored` of the state with the total adopted, read off register by
register. -/
theorem acceptedSegmentIsStored : Obligations.AcceptedSegmentIsStored := by
  intro s ln si st p hprog hline hlow hhigh htotal hidx
  have hslot : slotAddress (segOperands ln si st p).segmentIndex = 5 * si.toNat := slotAddress_setWidth si
  have hfits : slotAddress (segOperands ln si st p).segmentIndex + 5 ≤ 45 := by
    rw [hslot]
    bv_omega
  have hnine : (segOperands ln si st p).segmentIndex < 9#8 := by
    simp only [segOperands]
    bv_omega
  have hindex : (segOperands ln si st p).segmentIndex.toNat = si.toNat := nibble_toNat si
  refine ⟨_, exec_seg_accepted p hprog hline hlow hhigh htotal hidx, ?slot, ?others, ?bit, ?otherBits, rfl, rfl,
    ⟨rfl, rfl, rfl⟩, fun _ => rfl, rfl, rfl⟩
  case slot =>
    intro k hk
    rw [← hslot]
    exact segmentStored_lineByte_slot _ hfits hk
  case others =>
    intro q hq
    rw [← hslot] at hq
    exact segmentStored_lineByte_other _ hfits hq
  case bit => simp [segmentStored_received _ hnine, hindex]
  case otherBits =>
    intro j hj
    rw [segmentStored_received _ hnine, hindex, totalAdopted_received, decide_eq_false hj, Bool.false_or,
      State.clearOutputs_ctx]

/-! ### A frame of another line -/

/-- Acceptance rule 1 (R182): a frame of another line than the awaited one is dropped. -/
theorem processSegment_otherLine {m : SegFields} {s : State} (hprog : s.ctx.inProgress = true)
    (hline : m.lineNum ≠ s.ctx.currentLineIndex) : processSegment m s = .next (s.raise .segmentMismatch) := by
  rw [processSegment, if_neg (by simp [hprog]), if_pos hline, dropSegment]

/-- A line number has 15 bits, so zero-extended it stays below 0x8000 (30_encoding R106, R182). -/
theorem lineNumber_ne_of_high (ln : BitVec 15) {i : Half} (h : 0x8000#16 ≤ i) : ln.setWidth 16 ≠ i := by
  have hlt : (ln.setWidth 16 : Half) < 0x8000#16 := by bv_omega
  bv_omega

/-- Settles O17: from 0x8000 on the awaited index is above every line number of a frame, and a frame of another line
fails acceptance rule 1 before anything is written. -/
theorem segmentOfAnotherLineIsDropped : Obligations.SegmentOfAnotherLineIsDropped := by
  intro s ln si st p
  refine ⟨fun hhigh => lineNumber_ne_of_high ln hhigh, fun hprog hline => ?_⟩
  exact processSegment_otherLine (m := segOperands ln si st p) (s := s.clearOutputs) hprog hline

end Sys2Proof.Machine
end

section
/-! Start-address records (44_record_dispatch R244, R248): their handlers are the identity with result true, so as lines
they take the accepting end of line finalisation from an unchanged state. -/

namespace Sys2Proof.Machine

/-- A record operation whose handler succeeds without a write answers the state it got, with result true (R231). -/
theorem handlerOutcome_accepted (s : State) :
    handlerOutcome (s.clearOutputs, true) = .next { s with out := returned (.bool true) } := rfl

theorem exec_recSsa (r : HexRecord) (s : State) :
    exec (.recSsa r) s = .next { s with out := returned (.bool true) } :=
  calc exec (.recSsa r) s
    _ = handlerOutcome (recordSsa s.clearOutputs) := rfl
    _ = .next { s with out := returned (.bool true) } := by rw [recordSsa_eq, handlerOutcome_accepted]

theorem exec_recSla (r : HexRecord) (s : State) :
    exec (.recSla r) s = .next { s with out := returned (.bool true) } :=
  calc exec (.recSla r) s
    _ = handlerOutcome (recordSla s.clearOutputs) := rfl
    _ = .next { s with out := returned (.bool true) } := by rw [recordSla_eq, handlerOutcome_accepted]

/-- The dispatch of a record of type 03h or 05h succeeds and writes nothing (R230, R244, R248). -/
theorem dispatchRecord_startAddress {pl : ParsedLine} (s : State)
    (hty : pl.recordType = 3#8 ∨ pl.recordType = 5#8) : dispatchRecord pl s = (s, true) := by
  rcases hty with hty | hty
  · simp [dispatchRecord, hty]
  · simp [dispatchRecord, hty]

/-- The accepting end of line finalisation, from what the parser and the handler answer (45_transfer_control R275,
R276). -/
theorem finaliseLine_accepted {pl : ParsedLine} {s t : State}
    (hparse : parseLineBuf s.cfg.hexAcceptLower s.ctx.lineBuf = pl) (hvalid : pl.valid = true)
    (hdispatch : dispatchRecord pl s = (t, true)) : finaliseLine s = (acceptLine t).lineReset := by
  simp [finaliseLine, hparse, hvalid, hdispatch]

/-- An accepted line moves the file CRC and the index, and its own registers are reset; nothing else changes
(10_state R61, 45_transfer_control R276). -/
theorem lineReset_acceptLine (s : State) :
    (acceptLine s).lineReset = { s with
      ctx := freshLine { s.ctx with
        fileCrcReg := crcFeed s.ctx.fileCrcReg (lineText s.ctx.lineBuf)
        currentLineIndex := s.ctx.currentLineIndex + 1#16 } } := rfl

/-- Settles O31: neither handler writes, so the line is accepted from the state it was parsed in. -/
theorem startAddressRecordsAreIgnored : Obligations.StartAddressRecordsAreIgnored := by
  refine ⟨fun r s i hi => ?operation, fun r s ty hty hparse => ?line⟩
  case operation =>
    rcases hi with rfl | rfl
    · exact exec_recSsa r s
    · exact exec_recSla r s
  case line =>
    have hdispatch : dispatchRecord ⟨true, ty, r⟩ s = (s, true) := dispatchRecord_startAddress s hty
    rw [finaliseLine_accepted hparse rfl hdispatch, lineReset_acceptLine]

end Sys2Proof.Machine
end

section
/-! The status queries (45_transfer_control R290, R291): what the flags they read say in a state with a legal flag
combination, and which operations of the host can end a completed transfer. -/

namespace Sys2Proof.Machine

/-! ### The flags and the transfer state -/

/-- The two status flags in each of the four states of 10_state R41. -/
theorem transferState_cases {c : Context} (h : (transferState c).isSome) :
    (transferState c = some .idle ∧ c.inProgress = false ∧ c.complete = false) ∨
    (transferState c = some .receiving ∧ c.inProgress = true ∧ c.complete = false) ∨
    (transferState c = some .completing ∧ c.inProgress = true ∧ c.complete = false) ∨
    (transferState c = some .complete ∧ c.inProgress = false ∧ c.complete = true) := by
  unfold transferState at h ⊢
  split at h
  case h_5 => simp at h
  all_goals simp [*]

theorem inProgress_iff_receiving_or_completing {c : Context} (h : (transferState c).isSome) :
    c.inProgress = true ↔ transferState c = some .receiving ∨ transferState c = some .completing := by
  rcases transferState_cases h with ⟨hs, hp, -⟩ | ⟨hs, hp, -⟩ | ⟨hs, hp, -⟩ | ⟨hs, hp, -⟩ <;> simp [hs, hp]

theorem complete_iff_transferState {c : Context} (h : (transferState c).isSome) :
    c.complete = true ↔ transferState c = some .complete := by
  rcases transferState_cases h with ⟨hs, -, hc⟩ | ⟨hs, -, hc⟩ | ⟨hs, -, hc⟩ | ⟨hs, -, hc⟩ <;> simp [hs, hc]

theorem fileCrcMatches_iff (c : Context) :
    fileCrcMatches c = true ↔ computedFileCrc32 c = c.expectedFileCrc32 :=
  decide_eq_true_iff

/-! ### The queries -/

/-- An operation that only hands back a value writes nothing else. -/
theorem setRet_clearOutputs (v : Ret) (s : State) : s.clearOutputs.setRet v = { s with out := returned v } := rfl

/-- Settles O33: under the invariant the flags are in one of the four states, and `in_progress` is set in two. -/
theorem inProgressQueryReadsTheFlag : Obligations.InProgressQueryReadsTheFlag := by
  intro s
  refine ⟨?_, fun inv => inProgress_iff_receiving_or_completing inv.flagsLegal⟩
  rw [exec_qInProgress, setRet_clearOutputs]

/-! ### While no transfer is under way -/

/-- Segments are ignored while idle (42_segment_reassembly R181). -/
theorem processSegment_idle (m : SegFields) {s : State} (hidle : s.ctx.inProgress = false) :
    processSegment m s = .next s :=
  if_pos hidle

theorem tickSteps_idle {s : State} (hidle : s.ctx.inProgress = false) : tickSteps s = idleTick s :=
  if_pos hidle

@[simp] theorem initReject_complete (s : State) : (initReject s).ctx.complete = s.ctx.complete := rfl

/-- The silent tick and the report of a bad Init (45_transfer_control R271, R283) leave `complete`. -/
@[simp] theorem idleTick_complete (s : State) : (idleTick s).ctx.complete = s.ctx.complete := by
  unfold idleTick
  split
  · rfl
  · rfl

/-- A frame that arrives while no transfer is under way moves `complete` only if it is a valid Init
(45_transfer_control R264, R265). -/
theorem exec_opFrame_complete {buf : Frame} {now : Word} {s t : State} (hidle : s.ctx.inProgress = false)
    (h : exec (.opFrame buf now) s = .next t) :
    t.ctx.complete = s.ctx.complete ∨ (classify buf = .init ∧ initValid (unpackInitFrame buf) = true) := by
  rcases exec_opFrame buf now s with ⟨hkind, e⟩ | ⟨-, e⟩ <;> rw [e] at h
  · rcases processInit_cases (unpackInitFrame buf) { s.clearOutputs with now := now } with ⟨hvalid, -⟩ | ⟨-, e'⟩
    · exact .inr ⟨hkind, hvalid⟩
    · rw [e'] at h
      cases h
      exact .inl (initReject_complete _)
  · rw [processSegment_idle _ (s := { s.clearOutputs with now := now }) hidle] at h
    cases h
    exact .inl rfl

/-- While no transfer is under way, of the host's operations only a reset, an abort and a valid Init frame can move
`complete`. -/
theorem exec_port_complete {op : PortOp} {s t : State} (hidle : s.ctx.inProgress = false)
    (h : exec op.instr s = .next t) :
    t.ctx.complete = s.ctx.complete ∨ op = .reset ∨ op = .abort ∨
      ∃ buf now, op = .frame buf now ∧ classify buf = .init ∧ initValid (unpackInitFrame buf) = true := by
  cases op with
  | reset => exact .inr (.inl rfl)
  | abort => exact .inr (.inr (.inl rfl))
  | frame buf now =>
    rcases exec_opFrame_complete hidle h with hc | ⟨hkind, hvalid⟩
    · exact .inl hc
    · exact .inr (.inr (.inr ⟨buf, now, rfl, hkind, hvalid⟩))
  | tick now =>
    rw [PortOp.instr, exec_opTick, tickSteps_idle (s := { s.clearOutputs with now := now }) hidle] at h
    cases h
    exact .inl (idleTick_complete _)
  | qInProgress | qComplete =>
    cases h
    exact .inl rfl

/-- Settles O34: `complete` is set in state Complete alone, where invariant 6 gives the file CRC and says that no
transfer is under way. -/
theorem completeQueryReadsTheFlag : Obligations.CompleteQueryReadsTheFlag := by
  refine ⟨fun s => ⟨?query, fun inv => ⟨complete_iff_transferState inv.flagsLegal, fun hc => ?crc⟩⟩,
    fun s t r rest inv hc hport hstep => ?stays⟩
  case query => rw [exec_qComplete, setRet_clearOutputs]
  case crc =>
    obtain ⟨hmatch, -⟩ := inv.completeMatches hc
    exact (fileCrcMatches_iff s.ctx).mp hmatch
  case stays =>
    obtain ⟨-, hidle⟩ := inv.completeMatches hc
    rw [step_request hport] at hstep
    have hkept := exec_port_complete (s := { s with port := rest, flashReply := r.flashReply }) hidle hstep
    rwa [hc] at hkept

end Sys2Proof.Machine
end

section
/-! The frame codec (30_encoding sections 1 to 3, 41_frame_codec): the bytes and the fields of a frame determine each
other, and the word a frame stands for is the union of its fields. -/

namespace Sys2Proof.Machine

/-! ### Fields from bytes -/

theorem frameWord_extract_byte (buf : Frame) (k : Nat) (hk : k < 8) :
    (frameWord buf).extractLsb' (8 * k) 8 = buf[k] := by
  rw [← wordFrame_get _ k hk]
  simp only [wordFrame_frameWord]

/-- Two adjacent fields, the lower one first, are one field. -/
theorem extract_append (w : FrameWord) {lo mid n m : Nat} (h : mid = lo + n) :
    w.extractLsb' mid m ++ w.extractLsb' lo n = w.extractLsb' lo (m + n) :=
  BitVec.extractLsb'_append_extractLsb'_eq_extractLsb' h

/-- A field one bit above the start of a cut of sixteen is that cut shifted down (the `bytes` column of R100). -/
theorem extract_shift_one (w : FrameWord) :
    (w.extractLsb' 1 15).setWidth 16 = w.extractLsb' 0 16 >>> 1 := by
  apply BitVec.eq_of_getLsbD_eq
  intro i hi
  simp only [BitVec.getLsbD_setWidth, BitVec.getLsbD_extractLsb', BitVec.getLsbD_ushiftRight]
  by_cases h : i < 15
  · simp [hi, h, show 1 + i < 16 by omega]
  · simp [h, show ¬ 1 + i < 16 by omega]

theorem setWidth_low_nibble (w : FrameWord) (lo : Nat) :
    (w.extractLsb' lo 4).setWidth 8 = w.extractLsb' lo 8 &&& 0x0F#8 := by
  apply BitVec.eq_of_getLsbD_eq
  intro i hi
  interval_cases i <;> simp

theorem setWidth_high_nibble (w : FrameWord) (lo : Nat) :
    (w.extractLsb' (lo + 4) 4).setWidth 8 = w.extractLsb' lo 8 >>> 4 := by
  apply BitVec.eq_of_getLsbD_eq
  intro i hi
  simp only [BitVec.getLsbD_setWidth, BitVec.getLsbD_extractLsb', BitVec.getLsbD_ushiftRight]
  by_cases h : i < 4
  · simp [hi, h, show 4 + i < 8 by omega, Nat.add_assoc]
  · simp [h, show ¬ 4 + i < 8 by omega]

/-- The 15-bit number in bytes 0 and 1 of either frame kind (R100, R101). -/
theorem frameWord_number (buf : Frame) :
    ((frameWord buf).extractLsb' 1 15).setWidth 16 = (buf[1] ++ buf[0]) >>> 1 := by
  rw [extract_shift_one, ← frameWord_extract_byte buf 0 (by omega), ← frameWord_extract_byte buf 1 (by omega),
    extract_append _ (by rfl)]

theorem frame_take_six (buf : Frame) : buf.toList.take 6 = [buf[0], buf[1], buf[2], buf[3], buf[4], buf[5]] := by
  obtain ⟨⟨l⟩, h⟩ := buf
  match l, h with
  | [_, _, _, _, _, _, _, _], _ => rfl

theorem unpackInitFrame_bytes (buf : Frame) : unpackInitFrame buf =
    ⟨(buf[1] ++ buf[0]) >>> 1, buf[5] ++ buf[4] ++ buf[3] ++ buf[2], buf[7] ++ buf[6],
      low16 (crc32Of [buf[0], buf[1], buf[2], buf[3], buf[4], buf[5]])⟩ := by
  have hcrc : (frameWord buf).extractLsb' 16 32 = buf[5] ++ buf[4] ++ buf[3] ++ buf[2] := by
    simp only [← frameWord_extract_byte buf _ (by omega : 5 < 8), ← frameWord_extract_byte buf _ (by omega : 4 < 8),
      ← frameWord_extract_byte buf _ (by omega : 3 < 8), ← frameWord_extract_byte buf _ (by omega : 2 < 8)]
    rw [extract_append _ (by rfl), extract_append _ (by rfl), extract_append _ (by rfl)]
  have hcheck : (frameWord buf).extractLsb' 48 16 = buf[7] ++ buf[6] := by
    rw [← frameWord_extract_byte buf 7 (by omega), ← frameWord_extract_byte buf 6 (by omega),
      extract_append _ (by rfl)]
  simp only [unpackInitFrame, frameWord_number, hcrc, hcheck, initCheck, frame_take_six]

theorem segPayload_bytes (buf : Frame) :
    segPayload (frameWord buf) = #v[buf[3], buf[4], buf[5], buf[6], buf[7]] := by
  have byte (k : Nat) (hk : k < 8) := frameWord_extract_byte buf k hk
  simp only [segPayload, ← byte 3 (by omega), ← byte 4 (by omega), ← byte 5 (by omega), ← byte 6 (by omega),
    ← byte 7 (by omega), Nat.reduceMul]

theorem unpackSegFrame_bytes (buf : Frame) : unpackSegFrame buf =
    ⟨(buf[1] ++ buf[0]) >>> 1, buf[2] &&& 0x0F#8, buf[2] >>> 4, #v[buf[3], buf[4], buf[5], buf[6], buf[7]]⟩ := by
  have hbyte : (frameWord buf).extractLsb' 16 8 = buf[2] := frameWord_extract_byte buf 2 (by omega)
  have hindex : ((frameWord buf).extractLsb' 16 4).setWidth 8 = buf[2] &&& 0x0F#8 := by
    rw [setWidth_low_nibble, hbyte]
  have htotal : ((frameWord buf).extractLsb' 20 4).setWidth 8 = buf[2] >>> 4 := by
    rw [setWidth_high_nibble _ 16, hbyte]
  simp only [unpackSegFrame, frameWord_number, hindex, htotal, segPayload_bytes]

theorem exec_unpackInit (buf : Frame) (s : State) :
    exec (.unpackInit buf) s = .next { s with out := returned (.initFields (unpackInitFrame buf)) } := rfl

theorem exec_unpackSeg (buf : Frame) (s : State) :
    exec (.unpackSeg buf) s = .next { s with out := returned (.segFields (unpackSegFrame buf)) } := rfl

/-- Settles O3: bytes 8k to 8k + 7 of the frame word are byte k, and each field is made of such cuts. -/
theorem unpackedFieldsComeFromTheirBytes : Obligations.UnpackedFieldsComeFromTheirBytes := by
  intro buf s
  rw [exec_unpackInit, exec_unpackSeg, unpackInitFrame_bytes, unpackSegFrame_bytes]
  exact ⟨rfl, rfl⟩

/-- Settles O4: the packed frame holds its fields bit by bit. -/
theorem packedFramesHoldTheirFields : Obligations.PackedFramesHoldTheirFields := by
  refine ⟨fun lc fc ic s => ?_, fun ln si st p s => ?_⟩
  · exact ⟨packInitFrame lc fc ic, rfl, packInit_classify lc fc ic, unpack_packInit lc fc ic⟩
  · exact ⟨packSegFrame ln si st p, rfl, packSeg_classify ln si st p, unpack_packSeg ln si st p⟩

/-! ### Bytes from fields -/

/-- A field cut out of a word and put back where it stood has the word's bits there and no other. -/
theorem field_of_extract_getLsbD (w : FrameWord) (lo n i : Nat) (hi : i < 64) :
    ((w.extractLsb' lo n).setWidth 64 <<< lo).getLsbD i = (decide (lo ≤ i ∧ i < lo + n) && w.getLsbD i) := by
  rw [field_getLsbD _ _ _ hi, BitVec.getLsbD_extractLsb']
  by_cases hlo : lo ≤ i
  · simp [hlo, show i - lo < n ↔ i < lo + n by omega]
  · simp [hlo]

/-- The fields of an Init word cover it, but for the kind bit (R100, R102). -/
theorem initWord_of_fields (w : FrameWord) (h : w.getLsbD 0 = false) :
    (w.extractLsb' 1 15).setWidth 64 <<< 1 ||| (w.extractLsb' 16 32).setWidth 64 <<< 16 |||
      (w.extractLsb' 48 16).setWidth 64 <<< 48 = w := by
  apply BitVec.eq_of_getLsbD_eq
  intro i hi
  simp only [BitVec.getLsbD_or, field_of_extract_getLsbD _ _ _ _ hi]
  cases hbit : w.getLsbD i with
  | false => simp only [Bool.and_false, Bool.or_false]
  | true =>
    have hpos : i ≠ 0 := by
      rintro rfl
      rw [h] at hbit
      cases hbit
    simp
    omega

/-- The fields of a Segment word cover it, with the kind bit (R101, R102). -/
theorem segWord_of_fields (w : FrameWord) (h : w.getLsbD 0 = true) :
    1#64 ||| (w.extractLsb' 1 15).setWidth 64 <<< 1 ||| (w.extractLsb' 16 4).setWidth 64 <<< 16 |||
      (w.extractLsb' 20 4).setWidth 64 <<< 20 ||| (w.extractLsb' 24 8).setWidth 64 <<< 24 |||
      (w.extractLsb' 32 8).setWidth 64 <<< 32 ||| (w.extractLsb' 40 8).setWidth 64 <<< 40 |||
      (w.extractLsb' 48 8).setWidth 64 <<< 48 ||| (w.extractLsb' 56 8).setWidth 64 <<< 56 = w := by
  apply BitVec.eq_of_getLsbD_eq
  intro i hi
  rcases Nat.eq_zero_or_pos i with rfl | hpos
  · simp [h]
  · have hone : (1#64).getLsbD i = false := by simp [BitVec.getLsbD_one]; omega
    simp only [BitVec.getLsbD_or, hone, Bool.false_or, field_of_extract_getLsbD _ _ _ _ hi]
    cases w.getLsbD i with
    | false => simp only [Bool.and_false, Bool.or_false]
    | true => simp; omega

theorem classify_init_iff (buf : Frame) : classify buf = .init ↔ (frameWord buf).getLsbD 0 = false := by
  unfold classify
  cases (frameWord buf).getLsbD 0 <;> simp

theorem classify_segment_iff (buf : Frame) : classify buf = .segment ↔ (frameWord buf).getLsbD 0 = true := by
  unfold classify
  cases (frameWord buf).getLsbD 0 <;> simp

/-- What a frame decodes to, by its kind (30_encoding R107). -/
theorem decodeFrame_cases (buf : Frame) :
    (classify buf = .init ∧ decodeFrame buf = .init ((frameWord buf).extractLsb' 1 15)
      ((frameWord buf).extractLsb' 16 32) ((frameWord buf).extractLsb' 48 16)) ∨
    (classify buf = .segment ∧ decodeFrame buf = .seg ((frameWord buf).extractLsb' 1 15)
      ((frameWord buf).extractLsb' 16 4) ((frameWord buf).extractLsb' 20 4) (segPayload (frameWord buf))) := by
  unfold decodeFrame
  cases h : classify buf <;> simp

theorem packInitFrame_of_init {buf : Frame} (h : classify buf = .init) :
    packInitFrame ((frameWord buf).extractLsb' 1 15) ((frameWord buf).extractLsb' 16 32)
      ((frameWord buf).extractLsb' 48 16) = buf := by
  rw [packInitFrame, initWord_of_fields _ ((classify_init_iff buf).mp h), wordFrame_frameWord]

theorem packSegFrame_of_segment {buf : Frame} (h : classify buf = .segment) :
    packSegFrame ((frameWord buf).extractLsb' 1 15) ((frameWord buf).extractLsb' 16 4)
      ((frameWord buf).extractLsb' 20 4) (segPayload (frameWord buf)) = buf :=
  calc packSegFrame _ _ _ (segPayload (frameWord buf))
    _ = wordFrame (frameWord buf) := congrArg wordFrame (segWord_of_fields _ ((classify_segment_iff buf).mp h))
    _ = buf := wordFrame_frameWord buf

/-- Settles O2: packing the fields of either kind gives the frame word back, so no bit is dropped. -/
theorem frameBytesEncodeBack : Obligations.FrameBytesEncodeBack := by
  intro cfg buf
  rcases decodeFrame_cases buf with ⟨hkind, e⟩ | ⟨hkind, e⟩
  · rw [e, encode, packInitFrame_of_init hkind]
  · rw [e, encode, packSegFrame_of_segment hkind]

/-- A packed Init frame decodes to its instruction (41_frame_codec R170). -/
theorem decodeFrame_packInit (lc : BitVec 15) (fc : Word) (ic : Half) :
    decodeFrame (packInitFrame lc fc ic) = .init lc fc ic := by
  obtain ⟨h1, h2, h3, -⟩ := packInit_fields lc fc ic
  simp only [decodeFrame, packInit_classify, h1, h2, h3]

/-- A packed Segment frame decodes to its instruction (41_frame_codec R171). -/
theorem decodeFrame_packSeg (ln : BitVec 15) (si st : BitVec 4) (p : Vector Byte 5) :
    decodeFrame (packSegFrame ln si st p) = .seg ln si st p := by
  obtain ⟨h1, h2, h3, h4, -⟩ := packSeg_fields ln si st p
  simp only [decodeFrame, packSeg_classify, h1, h2, h3, h4]

theorem decode_frame (cfg : Config) (buf : Frame) :
    decode cfg ⟨.frame, buf.toList⟩ = .ok (decodeFrame buf) := by
  simp only [decode, frameOfBytes_toList]

end Sys2Proof.Machine
end

section
/-! The text of a record and the parse of a line (30_encoding section 6, 43_hex_line): `PARSE_LINE` accepts exactly the
texts of well-formed records, so the encoder's text is read back. -/

namespace Sys2Proof.Machine

/-! ### Well-formed records -/

/-- The three checks of a record, the sum in the order in which `PARSE_LINE` takes it (43_hex_line R207, R210, R215). -/
theorem recordWellFormed_iff (ty : Byte) (r : HexRecord) :
    recordWellFormed ty r = true ↔ r.byteCount ≤ 16#8 ∧ tailZero r = true ∧
      r.byteCount + r.address.extractLsb' 8 8 + r.address.extractLsb' 0 8 + ty + byteSum (dataBytes r) +
        r.checksum = 0#8 := by
  simp only [recordWellFormed, byteCountOk, checksumOk, foldl_add, Bool.and_eq_true, decide_eq_true_eq, and_assoc,
    dataBytes]
  rw [add_right_comm _ r.checksum]

theorem dataBytes_length {r : HexRecord} (h : r.byteCount ≤ 16#8) : (dataBytes r).length = r.byteCount.toNat := by
  have h' : r.byteCount.toNat ≤ 16 := h
  simpa [dataBytes] using h'

theorem recordBytes_length {r : HexRecord} (ty : Byte) (h : r.byteCount ≤ 16#8) :
    (recordBytes ty r).length = 5 + r.byteCount.toNat := by
  have hd : (r.data.toList.take r.byteCount.toNat).length = r.byteCount.toNat := dataBytes_length h
  simp only [recordBytes, List.length_cons, List.length_append, hd, List.length_nil]
  omega

/-- A record made of decoded data bytes holds them, with 0x00 after them. -/
theorem dataArray_record {bc : Byte} {a : Half} {ds : List Byte} {ck : Byte} (hds : ds.length = bc.toNat)
    (hbc : bc ≤ 16#8) :
    dataBytes ⟨bc, a, dataArray ds, ck⟩ = ds ∧ tailZero ⟨bc, a, dataArray ds, ck⟩ = true := by
  have hle : ds.length ≤ 16 := hds ▸ hbc
  constructor
  · simp only [dataBytes, dataArray_toList ds hle, ← hds, List.take_left]
  · simp only [tailZero, dataArray_toList ds hle, ← hds, List.drop_left, List.all_eq_true, List.mem_replicate]
    rintro b ⟨-, rfl⟩
    rfl

/-! ### Lines and records -/

/-- A line's text is that of a record exactly when its length, its colon and its pairs say so, the data bytes read by
the parser's own loop. -/
theorem lineText_record_iff (lower : Bool) (l : Line) (ty : Byte) {r : HexRecord} (hb : r.byteCount ≤ 16#8) :
    (lineText l).map (foldCase lower) = recordText ty r ↔
      effectiveLength l = 11 + 2 * r.byteCount.toNat ∧ lineByte l 0 = 0x3A#8 ∧
        hex2 lower l 1 = some r.byteCount ∧ hex2 lower l 3 = some (r.address.extractLsb' 8 8) ∧
        hex2 lower l 5 = some (r.address.extractLsb' 0 8) ∧ hex2 lower l 7 = some ty ∧
        hexData lower l 9 r.byteCount.toNat = some (dataBytes r) ∧
        hex2 lower l (9 + 2 * r.byteCount.toNat) = some r.checksum := by
  rw [recordText, lineText_hex, record_getElems ty r (fun k b => hex2 lower l (1 + 2 * k) = some b) hb, hexData_iff,
    and_iff_right (dataBytes_length hb), recordBytes_length ty hb]
  have hlen : 1 + 2 * (5 + r.byteCount.toNat) = 11 + 2 * r.byteCount.toNat := by omega
  have hdata : ∀ k, 1 + 2 * (4 + k) = 9 + 2 * k := fun k => by omega
  simp only [hlen, hdata]
  rfl

/-- The text of a well-formed record is parsed to it (43_hex_line R204 to R211). -/
theorem parseLineBuf_record {lower : Bool} {l : Line} {ty : Byte} {r : HexRecord} (hty : ty ≤ 5#8)
    (hwf : recordWellFormed ty r = true) (htext : (lineText l).map (foldCase lower) = recordText ty r) :
    parseLineBuf lower l = ⟨true, ty, r⟩ := by
  obtain ⟨hcount, htail, hsum⟩ := (recordWellFormed_iff ty r).mp hwf
  obtain ⟨hlen, hcolon, hbc, hah, hal, hrt, hds, hck⟩ := (lineText_record_iff lower l ty hcount).mp htext
  have hlong : ¬ 11 + 2 * r.byteCount.toNat < 11 := by omega
  have hdata : dataArray (dataBytes r) = r.data := dataArray_take r htail
  simp only [parseLineBuf, hlong, hcolon, hbc, hah, hal, hrt, hds, hck, BitVec.not_lt.mpr hcount,
    BitVec.not_lt.mpr hty, hlen, hsum, hdata, address_join, ne_eq, not_true_eq_false, if_false]

/-- A line that parses holds the text of the record it parses to. -/
theorem lineText_of_valid {lower : Bool} {l : Line} (h : (parseLineBuf lower l).valid = true) :
    ∃ (ty : Byte) (r : HexRecord), ty ≤ 5#8 ∧ recordWellFormed ty r = true ∧
      (lineText l).map (foldCase lower) = recordText ty r := by
  obtain ⟨bc, ah, al, rt, ds, ck, hcolon, hcount, hlen, hrt, h1, h3, h5, h7, hds, hck, hsum, -⟩ := parse_true lower l h
  obtain ⟨hdsLen, -⟩ := (hexData_iff lower l bc.toNat 9 ds).mp hds
  obtain ⟨hbytes, htail⟩ := dataArray_record (a := ah ++ al) (ck := ck) hdsLen hcount
  obtain ⟨hhigh, hlow⟩ := extract_join ah al
  refine ⟨rt, ⟨bc, ah ++ al, dataArray ds, ck⟩, hrt, ?wellFormed, ?text⟩
  case wellFormed =>
    rw [recordWellFormed_iff]
    simp only [hbytes, hhigh, hlow]
    exact ⟨hcount, htail, hsum⟩
  case text =>
    rw [lineText_record_iff lower l rt (r := ⟨bc, ah ++ al, dataArray ds, ck⟩) hcount]
    simp only [hbytes, hhigh, hlow]
    exact ⟨hlen, hcolon, h1, h3, h5, h7, hds, hck⟩

/-- Settles O6: the parser's checks, taken together, say that the text is that of a well-formed record. -/
theorem validLinesAreRecordTexts : Obligations.ValidLinesAreRecordTexts :=
  fun _ _ => ⟨fun _ _ hty hwf htext => parseLineBuf_record hty hwf htext, lineText_of_valid⟩

/-! ### `PARSE_LINE` -/

theorem exec_parseLine_valid {s : State} {pl : ParsedLine}
    (hparse : parseLineBuf s.cfg.hexAcceptLower s.ctx.lineBuf = pl) (hvalid : pl.valid = true) :
    exec .parseLine s = .next { s with out := returned (.parsed pl) } := by
  simp only [exec, execParseLine, hparse, hvalid, if_true, setRet_clearOutputs]

theorem exec_parseLine_invalid {s : State} {pl : ParsedLine}
    (hparse : parseLineBuf s.cfg.hexAcceptLower s.ctx.lineBuf = pl) (hvalid : pl.valid = false) :
    exec .parseLine s = .next { s with out := { returned (.parsed pl) with raised := [.lineParseError] } } := by
  simp only [exec, execParseLine, hparse, hvalid, Bool.false_eq_true, if_false, setRet_clearOutputs]
  rfl

/-- Settles O7: the line parses exactly when its text is that of a record. -/
theorem parseLineFindsTheRecord : Obligations.ParseLineFindsTheRecord := by
  intro s
  refine ⟨fun ty r hty hwf htext => ?found, fun hnone => ?none⟩
  case found => exact exec_parseLine_valid (parseLineBuf_record hty hwf htext) rfl
  case none =>
    have hvalid : (parseLineBuf s.cfg.hexAcceptLower s.ctx.lineBuf).valid = false := by
      rw [← Bool.not_eq_true]
      intro h
      obtain ⟨ty, r, hty, hwf, htext⟩ := lineText_of_valid h
      exact hnone ty r hty hwf htext
    exact ⟨_, hvalid, exec_parseLine_invalid rfl hvalid⟩

theorem dataReached_unique {lower : Bool} {l : Line} {a b : Byte} (ha : DataReached lower l a)
    (hb : DataReached lower l b) : a = b :=
  Option.some.inj (ha.count.symm.trans hb.count)

/-- Settles O56: the bytes the loop decoded fill the array where the data is reached, and none do where it is not. -/
theorem invalidResultHoldsTheDecodedBytes : Obligations.InvalidResultHoldsTheDecodedBytes := by
  intro s hvalid
  refine ⟨_, exec_parseLine_invalid rfl hvalid, hvalid, ?_⟩
  rcases parse_false _ _ hvalid with ⟨bc, hreached, e⟩ | ⟨hnot, e⟩ <;> rw [e]
  · refine ⟨fun b hb k hk => ?_, fun hnone => absurd hreached (hnone bc)⟩
    rw [dataReached_unique hb hreached]
    exact (dataArray_get _ k hk).trans (hexPrefix_get _ _ _ 9 k)
  · refine ⟨fun bc hbc => absurd hbc (hnot bc), fun _ k hk => ?_⟩
    exact (dataArray_get [] k hk).trans (List.getD_nil)

/-! ### Decode and encode -/

theorem recordText_length {r : HexRecord} (ty : Byte) (h : r.byteCount ≤ 16#8) : (recordText ty r).length ≤ 45 := by
  have h' : r.byteCount.toNat ≤ 16 := h
  rw [recordText, List.length_cons, hexText_length, recordBytes_length ty h]
  omega

theorem foldCase_upper (lower : Bool) {c : Byte} (h : c ≤ 0x46#8) : foldCase lower c = c := by
  rw [foldCase, if_neg]
  rintro ⟨-, hlow, -⟩
  bv_omega

/-- The text of a record is upper case already. -/
theorem recordText_map_fold (lower : Bool) (ty : Byte) (r : HexRecord) :
    (recordText ty r).map (foldCase lower) = recordText ty r :=
  (List.map_congr_left fun c hc => foldCase_upper lower (recordText_range ty r c hc).2).trans (List.map_id _)

theorem lineText_lineOf_record {r : HexRecord} (ty : Byte) (h : r.byteCount ≤ 16#8) :
    lineText (lineOf (recordText ty r)) = recordText ty r := by
  refine lineOf_text _ (fun c hc => ?_) (recordText_length ty h)
  have hle := (recordText_range ty r c hc).2
  rw [padByte]
  bv_omega

/-- The text of a well-formed record is read back as the record's operation (30_encoding R112, R115). -/
theorem decode_recordText (cfg : Config) {ty : Byte} {r : HexRecord} {i : Instr} (hty : ty ≤ 5#8)
    (hwf : recordWellFormed ty r = true) (hi : recordInstr ty r = some i) :
    decode cfg ⟨.record, recordText ty r⟩ = .ok i := by
  obtain ⟨hcount, -, -⟩ := (recordWellFormed_iff ty r).mp hwf
  have hparse : parseLineBuf cfg.hexAcceptLower (lineOf (recordText ty r)) = ⟨true, ty, r⟩ :=
    parseLineBuf_record hty hwf (by rw [lineText_lineOf_record ty hcount, recordText_map_fold])
  simp only [decode, decodeRecord, if_neg (Nat.not_lt.mpr (recordText_length ty hcount)), hparse, if_true, hi]

/-- The response frame of a code is read back as the operation that emits it (30_encoding R108, R109). -/
theorem decode_encodeResponse (cfg : Config) (pad : Byte) (c : ResponseCode) :
    decode cfg ⟨.response, (encodeResponse pad c).toList⟩ = .ok (responseInstr c) := by
  simp only [decode, frameOfBytes_toList]
  cases c <;> rfl

/-- Settles O1, layer by layer: frames by their fields, records by the parse of their text, responses by their code. -/
theorem encodedInstructionDecodesBack : Obligations.EncodedInstructionDecodesBack := by
  intro cfg i e hwf he
  cases i with
  | init lc fc ic =>
    cases he
    rw [decode_frame, decodeFrame_packInit]
  | seg ln si st p =>
    cases he
    rw [decode_frame, decodeFrame_packSeg]
  | recData r | recEof r | recEsa r | recSsa r | recEla r | recSla r =>
    cases he
    exact decode_recordText cfg (by decide) hwf rfl
  | rspNone | rspSendLine | rspTransferComplete | rspError =>
    cases he
    exact decode_encodeResponse cfg cfg.respPad _
  | opReset | opAbort | opFrame | opTick | qInProgress | qComplete => cases he
  | crc32 | crc32Upd | unpackInit | packInit | unpackSeg | packSeg | parseLine => cases he

/-- Settles O5: each word is what the encoder gives for its instruction, so it is read back. -/
theorem writtenWordsDecode : Obligations.WrittenWordsDecode :=
  ⟨encodedInstructionDecodesBack _ (.init 1#15 0x836BD2BA#32 0x2FFE#16) _ rfl rfl,
    encodedInstructionDecodesBack _ (.seg 0x0123#15 2#4 9#4 #v[0x41, 0x42, 0x43, 0x44, 0x45]) _ rfl rfl,
    encodedInstructionDecodesBack _
      (.recEsa ⟨0x02#8, 0#16, #v[0x12, 0, 0, 0, 0, 0, 0, 0, 0, 0, 0, 0, 0, 0, 0, 0], 0xEA#8⟩) _ rfl rfl,
    encodedInstructionDecodesBack _ .rspSendLine _ rfl rfl⟩

end Sys2Proof.Machine
end

section
/-! The invariant of the machine (10_state section 9): each end of a frame, of a tick and of the other port operations
keeps it, and in a state that meets it no operation of the host stops. -/

namespace Sys2Proof.Machine

/-! ### States that meet it -/

/-- The invariant speaks of the registers and of STAGE's canonical form alone. -/
theorem Inv.of_ctx {s t : State} (inv : Inv s) (hctx : t.ctx = s.ctx) (hstage : t.stage = s.stage) : Inv t := by
  obtain ⟨c, m, _, _, _, _, _, _⟩ := t
  subst hctx hstage
  exact { inv with }

/-- Reset registers meet it over any canonical STAGE (10_state R60). -/
theorem inv_of_reset {t : State} (hctx : t.ctx = Context.reset) (hstage : Memory.wf t.stage = true) : Inv t where
  totalLegal := .inl (by rw [hctx]; rfl)
  bitsBelowTotal i _ := by rw [hctx]; exact BitVec.getLsbD_zero
  emptySlots p hp _ := by simp [hctx, Context.reset]
  flagsLegal := by rw [hctx]; rfl
  completeMatches h := by rw [hctx] at h; cases h
  errorPending h := by rw [hctx] at h; cases h
  baseRange := by rw [hctx]; decide
  linesRange := by rw [hctx]; decide
  indexRange := by rw [hctx]; decide
  stageWf := hstage

/-- Settles O48: reset registers over an empty STAGE. -/
theorem resetMeetsTheInvariant : Obligations.ResetMeetsTheInvariant :=
  fun _ _ => inv_of_reset rfl Memory.wf_reset

/-- In a transfer under way the flags say Receiving or Completing (10_state R41). -/
theorem Inv.not_complete {s : State} (inv : Inv s) (h : s.ctx.inProgress = true) : s.ctx.complete = false := by
  rw [← Bool.not_eq_true]
  intro hc
  obtain ⟨-, hidle⟩ := inv.completeMatches hc
  rw [h] at hidle
  cases hidle

theorem transferState_underWay {c : Context} (hprog : c.inProgress = true) (hcomplete : c.complete = false) :
    (transferState c).isSome := by
  unfold transferState
  rw [hprog, hcomplete]
  cases c.eofReceived <;> rfl

/-- While the count is not known no segment is marked (10_state R30). -/
theorem Inv.received_false {s : State} (inv : Inv s) (h : s.ctx.segmentTotal = noTotal) (i : Nat) :
    s.ctx.segmentsReceived.getLsbD i = false :=
  inv.bitsBelowTotal i (by simp [knownTotal, h])

theorem Inv.total_le {s : State} (inv : Inv s) : s.ctx.segmentTotal = noTotal ∨ s.ctx.segmentTotal ≤ 9#8 :=
  inv.totalLegal.imp id And.right

/-! ### Init frames -/

theorem unpackInitFrame_lineCount_le (buf : Frame) : (unpackInitFrame buf).lineCount.toNat ≤ 0x7FFF := by
  simp only [unpackInitFrame, BitVec.toNat_setWidth]
  have h := ((frameWord buf).extractLsb' 1 15).isLt
  omega

theorem unpackSegFrame_lineNum_lt (buf : Frame) : (unpackSegFrame buf).lineNum.toNat < 0x8000 := by
  simp only [unpackSegFrame, BitVec.toNat_setWidth]
  have h := ((frameWord buf).extractLsb' 1 15).isLt
  omega

/-- A valid Init frame leaves the reset registers but for the five it loads (45_transfer_control R264). -/
theorem inv_initAccept {m : InitFields} {s : State} (inv : Inv s) (hcount : m.lineCount.toNat ≤ 0x7FFF) :
    Inv (initAccept m s) where
  totalLegal := .inl rfl
  bitsBelowTotal _ _ := BitVec.getLsbD_zero
  emptySlots p hp _ := padLine_get p hp
  flagsLegal := rfl
  completeMatches h := by cases h
  errorPending h := by cases h
  baseRange := ⟨Nat.zero_le _, rfl⟩
  linesRange := hcount
  indexRange := ⟨Nat.zero_le _, fun _ => rfl⟩
  stageWf := inv.stageWf

/-- A bad Init frame sets `init_error` with `new_init_pending` (45_transfer_control R265). -/
theorem inv_initReject {s : State} (inv : Inv s) : Inv (initReject s) :=
  { inv with errorPending := fun _ => rfl }

theorem inv_processInit {m : InitFields} {s : State} (inv : Inv s) (hcount : m.lineCount.toNat ≤ 0x7FFF) :
    Inv (processInit m s) := by
  rcases processInit_cases m s with ⟨-, e⟩ | ⟨-, e⟩ <;> rw [e]
  · exact inv_initAccept inv hcount
  · exact inv_initReject inv

/-! ### Segment frames -/

/-- Adopting a total of 1 to 9 keeps it: the buffer of a line with no known count is empty, and its index is below
0x8000, because the frame's line number is (10_state R28, 42_segment_reassembly R183). -/
theorem inv_adopted {s : State} {n : Byte} (inv : Inv s) (hno : s.ctx.segmentTotal = noTotal) (hlow : 1#8 ≤ n)
    (hhigh : n ≤ 9#8) (hindex : s.ctx.currentLineIndex.toNat < 0x8000) :
    Inv { s with ctx.segmentTotal := n, ctx.segmentsReceived := 0#9 } :=
  { inv with
    totalLegal := .inr ⟨hlow, hhigh⟩
    bitsBelowTotal := fun _ _ => BitVec.getLsbD_zero
    emptySlots := fun p hp _ => inv.emptySlots p hp (inv.received_false hno _)
    indexRange := ⟨hindex.le, fun h => absurd h hindex.ne⟩ }

/-- Acceptance rule 2 keeps the invariant and leaves a known total (R183). -/
theorem inv_adoptTotal {m : SegFields} {s u : State} (inv : Inv s) (hline : m.lineNum = s.ctx.currentLineIndex)
    (hnum : m.lineNum.toNat < 0x8000) (h : adoptTotal m s = some u) : Inv u ∧ u.ctx.segmentTotal ≠ noTotal := by
  rcases adoptTotal_spec h with ⟨hno, hlow, hhigh, rfl⟩ | ⟨hknown, -, rfl⟩
  · refine ⟨inv_adopted inv hno hlow hhigh (hline ▸ hnum), ?_⟩
    simp only [noTotal]
    bv_omega
  · exact ⟨inv, hknown⟩

theorem knownTotal_of_ne {c : Context} (h : c.segmentTotal ≠ noTotal) : knownTotal c = c.segmentTotal.toNat :=
  if_neg h

/-- Storing a segment below a known total marks its bit and fills its slot only (42_segment_reassembly R185). -/
theorem inv_segmentStored {m : SegFields} {u : State} (inv : Inv u) (hknown : u.ctx.segmentTotal ≠ noTotal)
    (hidx : m.segmentIndex < u.ctx.segmentTotal) (hslot : slotAddress m.segmentIndex + 5 ≤ 45) :
    Inv (segmentStored m u) := by
  have hnine : m.segmentIndex < 9#8 := by
    simp only [slotAddress] at hslot
    bv_omega
  refine { inv with bitsBelowTotal := fun i hi => ?bits, emptySlots := fun p hp hbit => ?slots }
  case bits =>
    have hi' : knownTotal u.ctx ≤ i := hi
    have hother : i ≠ m.segmentIndex.toNat := by
      rw [knownTotal_of_ne hknown] at hi'
      bv_omega
    rw [segmentStored_received u hnine, decide_eq_false hother, Bool.false_or]
    exact inv.bitsBelowTotal i hi'
  case slots =>
    rw [segmentStored_received u hnine, Bool.or_eq_false_iff, decide_eq_false_iff_not] at hbit
    obtain ⟨hother, hbit⟩ := hbit
    have hread := segmentStored_lineByte_other (m := m) u hslot (q := p) (by simp only [slotAddress]; omega)
    rw [lineByte_get _ _ hp, lineByte_get _ _ hp] at hread
    rw [hread]
    exact inv.emptySlots p hp hbit

theorem inv_processSegment {m : SegFields} {s t : State} (inv : Inv s) (hnum : m.lineNum.toNat < 0x8000)
    (h : processSegment m s = .next t) : Inv t := by
  rcases processSegment_next h with ⟨-, rfl⟩ | ⟨-, rfl⟩ | ⟨-, hline, u, hu, -, rfl⟩ |
    ⟨-, hline, u, hu, hidx, hslot, rfl⟩
  · exact inv
  · exact inv.of_ctx rfl rfl
  · exact (inv_adoptTotal inv hline hnum hu).1.of_ctx rfl rfl
  · obtain ⟨hinv, hknown⟩ := inv_adoptTotal inv hline hnum hu
    exact inv_segmentStored hinv hknown hidx hslot

theorem inv_opFrame {buf : Frame} {now : Word} {s t : State} (inv : Inv s)
    (h : exec (.opFrame buf now) s = .next t) : Inv t := by
  have inv' : Inv { s.clearOutputs with now := now } := inv.of_ctx rfl rfl
  rcases exec_opFrame buf now s with ⟨-, e⟩ | ⟨-, e⟩ <;> rw [e] at h
  · cases h
    exact inv_processInit inv' (unpackInitFrame_lineCount_le buf)
  · exact inv_processSegment inv' (unpackSegFrame_lineNum_lt buf) h

/-! ### Ticks -/

/-- The address records write a base in the range of 10_state R22. -/
theorem segmentBase_range (r : HexRecord) :
    (segmentBase r).toNat ≤ 0xFFFF0000 ∧ (segmentBase r).toNat % 16 = 0 := by
  have h := dataWord_toNat r
  have h0 := r.data[0].isLt
  have h1 := r.data[1].isLt
  rw [segmentBase_toNat]
  omega

theorem linearBase_range (r : HexRecord) :
    (linearBase r).toNat ≤ 0xFFFF0000 ∧ (linearBase r).toNat % 16 = 0 := by
  have h := dataWord_toNat r
  have h0 := r.data[0].isLt
  have h1 := r.data[1].isLt
  rw [linearBase_toNat]
  omega

/-- The registers of a fresh line in a transfer under way meet it, whatever was counted before (10_state R61). -/
theorem inv_of_freshLine {s t : State} {c : Context} (inv : Inv s) (hctx : t.ctx = freshLine c)
    (hstage : Memory.wf t.stage = true) (hprog : c.inProgress = true) (hcomplete : c.complete = false)
    (hpending : c.newInitPending = s.ctx.newInitPending) (herror : c.initError = s.ctx.initError)
    (hlines : c.expectedLines = s.ctx.expectedLines)
    (hbase : c.baseAddress.toNat ≤ 0xFFFF0000 ∧ c.baseAddress.toNat % 16 = 0)
    (hindex : c.currentLineIndex.toNat ≤ 0x8000) : Inv t where
  totalLegal := .inl (by rw [hctx]; rfl)
  bitsBelowTotal i _ := by rw [hctx]; exact BitVec.getLsbD_zero
  emptySlots p hp _ := by simp [hctx, freshLine]
  flagsLegal := by rw [hctx]; exact transferState_underWay (c := freshLine c) hprog hcomplete
  completeMatches h := by rw [hctx] at h; exact absurd (hcomplete.symm.trans h) Bool.false_ne_true
  errorPending := by rw [hctx]; simpa only [freshLine, hpending, herror] using inv.errorPending
  baseRange := by rw [hctx]; exact hbase
  linesRange := by rw [hctx]; simpa only [freshLine, hlines] using inv.linesRange
  indexRange := by rw [hctx]; exact ⟨hindex, fun _ => rfl⟩
  stageWf := hstage

theorem ready_iff (c : Context) : ready c = true ↔
    c.segmentTotal ≠ noTotal ∧ ∀ i < c.segmentTotal.toInt.toNat, c.segmentsReceived.getLsbD i = true := by
  simp [ready]

/-- A ready line awaits an index below 0x8000, so that the index can advance (10_state R28). -/
theorem Inv.index_lt_of_ready {s : State} (inv : Inv s) (h : ready s.ctx = true) :
    s.ctx.currentLineIndex.toNat < 0x8000 := by
  obtain ⟨hknown, -⟩ := (ready_iff s.ctx).mp h
  obtain ⟨hle, htop⟩ := inv.indexRange
  exact lt_of_le_of_ne hle fun h => hknown (htop h)

theorem inv_finaliseLine {s : State} (inv : Inv s) (hprog : s.ctx.inProgress = true) (hready : ready s.ctx = true) :
    Inv (finaliseLine s) := by
  have hcomplete := inv.not_complete hprog
  have hindex := inv.index_lt_of_ready hready
  have hnext : (s.ctx.currentLineIndex + 1#16).toNat ≤ 0x8000 := by bv_omega
  obtain ⟨-, -, -, -, hwf⟩ := finaliseLine_env s
  have hstage := hwf inv.stageWf
  obtain ⟨d, hd, hctx⟩ := finaliseLine_ctx s
  have hbase : d.baseAddress.toNat ≤ 0xFFFF0000 ∧ d.baseAddress.toNat % 16 = 0 := by
    rcases hd with ⟨_, _, rfl⟩ | rfl | ⟨r, rfl | rfl⟩
    · exact inv.baseRange
    · exact inv.baseRange
    · exact segmentBase_range r
    · exact linearBase_range r
  have hkept : d.inProgress = s.ctx.inProgress ∧ d.complete = s.ctx.complete ∧
      d.newInitPending = s.ctx.newInitPending ∧ d.initError = s.ctx.initError ∧
      d.expectedLines = s.ctx.expectedLines ∧ d.currentLineIndex = s.ctx.currentLineIndex := by
    rcases hd with ⟨_, _, rfl⟩ | rfl | ⟨r, rfl | rfl⟩ <;> exact ⟨rfl, rfl, rfl, rfl, rfl, rfl⟩
  obtain ⟨hp, hc, hpending, herror, hlines, hi⟩ := hkept
  rcases hctx with hctx | hctx
  · exact inv_of_freshLine inv hctx hstage (hp.trans hprog) (hc.trans hcomplete) hpending herror hlines hbase
      (hi ▸ hindex.le)
  · exact inv_of_freshLine inv hctx hstage (hp.trans hprog) (hc.trans hcomplete) hpending herror hlines hbase hnext

theorem inv_consumeInit {s : State} (inv : Inv s) : Inv (consumeInit s) :=
  { inv with errorPending := fun h => by cases h }

theorem inv_idleTick {s : State} (inv : Inv s) : Inv (idleTick s) := by
  unfold idleTick
  split
  · exact (inv_consumeInit inv).of_ctx rfl rfl
  · exact inv.of_ctx rfl rfl

/-- Completion leaves state Complete with the announced file CRC (10_state R55). -/
theorem inv_fileCrcGate {s : State} (inv : Inv s) (heof : s.ctx.eofReceived = true) : Inv (fileCrcGate s) := by
  rcases fileCrcGate_cases s with ⟨hmatch, e⟩ | ⟨-, e⟩ <;> rw [e]
  · refine { inv with flagsLegal := ?_, completeMatches := fun _ => ⟨hmatch, rfl⟩ }
    simp [transferState, heof]
  · exact inv_of_reset rfl inv.stageWf

/-- Every end of a tick keeps the invariant (45_transfer_control R270). -/
theorem inv_tickSteps {s : State} (inv : Inv s) : Inv (tickSteps s) := by
  rcases tickSteps_cases s with ⟨-, e⟩ | ⟨-, -, e⟩ | ⟨-, -, -, e⟩ | ⟨-, -, -, -, e⟩ | ⟨hprog, -, -, -, hready, e⟩ |
    ⟨-, -, -, -, -, heof, e⟩ | ⟨-, -, -, -, -, -, e⟩ <;> rw [e]
  · exact inv_idleTick inv
  · exact inv_of_reset rfl inv.stageWf
  · exact inv.of_ctx rfl rfl
  · exact (inv_consumeInit inv).of_ctx rfl rfl
  · exact (inv_finaliseLine inv hprog hready).of_ctx rfl rfl
  · exact inv_fileCrcGate inv heof
  · exact inv.of_ctx rfl rfl

/-! ### The step -/

theorem inv_exec_port {op : PortOp} {s t : State} (inv : Inv s) (h : exec op.instr s = .next t) : Inv t := by
  cases op with
  | frame buf now => exact inv_opFrame inv h
  | tick now =>
    cases h
    exact inv_tickSteps (inv.of_ctx rfl rfl)
  | reset | abort =>
    cases h
    exact inv_of_reset rfl inv.stageWf
  | qInProgress | qComplete =>
    cases h
    exact inv.of_ctx rfl rfl

/-- Settles O47: a step holds the state or is a port operation, each end of which keeps the invariant. -/
theorem everyStepKeepsTheInvariant : Obligations.EveryStepKeepsTheInvariant := by
  intro s t inv h
  cases hport : s.port with
  | nil =>
    rw [step_idle hport] at h
    cases h
    exact inv
  | cons r rest =>
    rw [step_request hport] at h
    exact inv_exec_port (s := { s with port := rest, flashReply := r.flashReply }) (inv.of_ctx rfl rfl) h

/-- No port operation stops in a state whose segment count is legal: a slot below it lies in the line (20_memory
R71). -/
theorem exec_port_completes {op : PortOp} {s : State} (inv : Inv s) : ∃ t, exec op.instr s = .next t := by
  cases op with
  | frame buf now =>
    rcases exec_opFrame buf now s with ⟨-, e⟩ | ⟨-, e⟩ <;> rw [PortOp.instr, e]
    · exact ⟨_, rfl⟩
    · exact processSegment_completes inv.total_le
  | reset | abort | tick | qInProgress | qComplete => exact ⟨_, rfl⟩

/-- Settles O49: without a request the state holds, and with one the port operation completes. -/
theorem noRequestStopsTheMachine : Obligations.NoRequestStopsTheMachine := by
  intro s inv
  cases hport : s.port with
  | nil => exact ⟨s, step_idle hport⟩
  | cons r rest =>
    rw [step_request hport]
    exact exec_port_completes (inv.of_ctx rfl rfl)

/-! ### Readiness -/

/-- A legal count is not negative as an `i8`. -/
theorem toInt_toNat_of_le_nine {n : Byte} (h : n ≤ 9#8) : n.toInt.toNat = n.toNat := by
  have h' : n.toNat ≤ 9 := h
  rw [BitVec.toInt_eq_toNat_of_lt (by omega), Int.toNat_natCast]

/-- A word whose bits lie below `n` has all of them exactly when it is `2 ^ n - 1`. -/
theorem all_bits_iff {v : BitVec 9} {n : Nat} (h : ∀ i, n ≤ i → v.getLsbD i = false) :
    (∀ i < n, v.getLsbD i = true) ↔ v.toNat = 2 ^ n - 1 := by
  constructor
  · intro hall
    apply Nat.eq_of_testBit_eq
    intro i
    rw [Nat.testBit_two_pow_sub_one, BitVec.testBit_toNat]
    by_cases hi : i < n
    · rw [hall i hi, decide_eq_true hi]
    · rw [h i (Nat.le_of_not_lt hi), decide_eq_false hi]
  · intro hv i hi
    rw [← BitVec.testBit_toNat, hv, Nat.testBit_two_pow_sub_one, decide_eq_true hi]

/-- Settles O42: under the invariant no bit stands above the count, so all bits below it make up the word. -/
theorem readyMeansEveryBitIsSet : Obligations.ReadyMeansEveryBitIsSet := by
  intro s inv
  rw [ready_iff]
  refine and_congr_right fun hknown => ?_
  have hle := inv.total_le.resolve_left hknown
  rw [toInt_toNat_of_le_nine hle]
  exact all_bits_iff fun i hi => inv.bitsBelowTotal i ((knownTotal_of_ne hknown).trans_le hi)

end Sys2Proof.Machine
end

section
/-! The CRC engine (40_crc32), the responses (46_response), and the frames and resets the host can issue
(45_transfer_control R260 to R266). -/

namespace Sys2Proof.Machine

/-! ### The byte step -/

theorem crcShift_eq (r : Word) : crcShift r = (r >>> 1) ^^^ (if r.getLsbD 0 then crcPoly else 0#32) := by
  unfold crcShift
  split
  · rfl
  · rw [BitVec.xor_zero]

/-- A shift is linear: the polynomial is added for bit 0 of either operand (40_crc32 R142). -/
theorem crcShift_xor (x y : Word) : crcShift (x ^^^ y) = crcShift x ^^^ crcShift y := by
  have hpoly : ∀ p q : Bool, (if (p ^^ q) then crcPoly else 0#32) =
      (if p then crcPoly else 0#32) ^^^ (if q then crcPoly else 0#32) := by decide
  simp only [crcShift_eq, BitVec.ushiftRight_xor_distrib, BitVec.getLsbD_xor, hpoly]
  ac_rfl

theorem crcShifts_xor (n : Nat) (x y : Word) : crcShifts n (x ^^^ y) = crcShifts n x ^^^ crcShifts n y := by
  induction n generalizing x y with
  | zero => rfl
  | succ n ih => rw [crcShifts, crcShift_xor, ih, ← crcShifts, ← crcShifts]

/-- Shifts that meet no 1 at bit 0 are plain right shifts. -/
theorem crcShifts_of_low_zero {n : Nat} {x : Word} (h : ∀ i < n, x.getLsbD i = false) : crcShifts n x = x >>> n := by
  induction n generalizing x with
  | zero => simp [crcShifts]
  | succ n ih =>
    have hfirst : crcShift x = x >>> 1 := by
      rw [crcShift_eq, h 0 (Nat.succ_pos n), if_neg Bool.false_ne_true, BitVec.xor_zero]
    have hrest : ∀ i < n, (x >>> 1).getLsbD i = false := fun i hi => by
      rw [BitVec.getLsbD_ushiftRight]
      exact h (1 + i) (by omega)
    rw [crcShifts, hfirst, ih hrest, ← BitVec.shiftRight_add, Nat.add_comm]

/-- A register is its upper 24 bits and its low byte. -/
theorem xor_byte_split (r : Word) (b : Byte) :
    r ^^^ b.setWidth 32 = (r >>> 8) <<< 8 ^^^ (r.setWidth 8 ^^^ b).setWidth 32 := by
  apply BitVec.eq_of_getLsbD_eq
  intro i hi
  by_cases h : i < 8
  · simp [hi, h]
  · simp [hi, h, show 8 + (i - 8) = i by omega]

theorem shift_down_up_down (r : Word) : (r >>> 8 <<< 8) >>> 8 = r >>> 8 := by
  apply BitVec.eq_of_getLsbD_eq
  intro i hi
  simp only [BitVec.getLsbD_ushiftRight, BitVec.getLsbD_shiftLeft]
  by_cases h : 8 + i < 32
  · simp [h]
  · simp [h, BitVec.getLsbD_of_ge r (8 + i) (by omega)]

/-- Settles O43: the eight shifts are linear, and leave the upper 24 bits, which have no 1 in the low byte, shifted. -/
theorem crcStepIsATableLookup : Obligations.CrcStepIsATableLookup := by
  intro r b
  have hupper : crcShifts 8 (r >>> 8 <<< 8) = r >>> 8 := by
    rw [crcShifts_of_low_zero (fun i hi => by simp [hi]), shift_down_up_down]
  calc crcStep r b
    _ = crcShifts 8 ((r >>> 8) <<< 8 ^^^ (r.setWidth 8 ^^^ b).setWidth 32) := by rw [crcStep, xor_byte_split]
    _ = (r >>> 8) ^^^ crcShifts 8 ((r.setWidth 8 ^^^ b).setWidth 32) := by rw [crcShifts_xor, hupper]
    _ = (r >>> 8) ^^^ crcStep 0#32 (r.setWidth 8 ^^^ b) := by rw [crcStep, BitVec.zero_xor]

/-! ### The running and the one-shot CRC -/

/-- The feed takes the bytes in ascending order (40_crc32 R142). -/
theorem crcFeed_eq_foldl (r : Word) (buf : List Byte) : crcFeed r buf = buf.foldl crcStep r := by
  induction buf generalizing r with
  | nil => rfl
  | cons b bs ih => exact ih (crcStep r b)

theorem exec_crc32 (buf : List Byte) (s : State) :
    exec (.crc32 buf) s = .next { s with out := returned (.word (crc32Of buf)) } := rfl

theorem exec_crc32Upd (buf : List Byte) (s : State) :
    exec (.crc32Upd buf) s = .next { s with
      ctx.fileCrcReg := crcFeed s.ctx.fileCrcReg buf
      out := returned (.word (crcFeed s.ctx.fileCrcReg buf ^^^ crcOnes)) } := rfl

/-- Settles O44: the running CRC from the reset value is the one-shot CRC's raw register. -/
theorem oneShotCrcAgreesWithTheRunningOne : Obligations.OneShotCrcAgreesWithTheRunningOne := by
  intro buf s
  refine ⟨exec_crc32 buf s, ?fold, fun hreg => ?running⟩
  case fold => rw [crc32Of, crcFeed_eq_foldl]; rfl
  case running =>
    have hfeed : crcFeed s.ctx.fileCrcReg buf = crc32Of buf ^^^ 0xFFFFFFFF#32 := by
      rw [crc32Of, hreg, BitVec.xor_assoc, crcOnes, BitVec.xor_self, BitVec.xor_zero]
    rw [exec_crc32Upd, hfeed, BitVec.xor_assoc, crcOnes, BitVec.xor_self, BitVec.xor_zero]

/-- Settles O45: the feed of a text is the feed of its second part from the feed of its first. -/
theorem runningCrcIgnoresTheCuts : Obligations.RunningCrcIgnoresTheCuts := by
  intro a b s
  refine ⟨_, _, exec_crc32Upd a s, exec_crc32Upd b _, ?_, ?_, crcFeed_eq_foldl _ _⟩
  · rw [exec_crc32Upd, crcFeed_append]
  · rw [crcFeed_append]; rfl

/-! ### Responses -/

/-- Settles O32: the encoded frame of each code, written out (R108, R109). -/
theorem responsesAreEmitted : Obligations.ResponsesAreEmitted := by
  refine fun s => ⟨rfl, fun i c n h => ?_⟩
  rcases h with ⟨rfl, rfl, rfl⟩ | ⟨rfl, rfl, rfl⟩ | ⟨rfl, rfl, rfl⟩ <;> rfl

/-! ### Requests -/

/-- Settles O9: the two cases of the request list. -/
theorem stepCarriesOutTheRequest : Obligations.StepCarriesOutTheRequest :=
  fun _ => ⟨step_idle, fun _ _ hport => step_request hport⟩

theorem exec_init (lc : BitVec 15) (fc : Word) (ic : Half) (s : State) :
    exec (.init lc fc ic) s = .next (processInit (initOperands lc fc ic) s.clearOutputs) := rfl

theorem unpackInitFrame_of_init {buf : Frame} (h : classify buf = .init) :
    unpackInitFrame buf = initOperands ((frameWord buf).extractLsb' 1 15) ((frameWord buf).extractLsb' 16 32)
      ((frameWord buf).extractLsb' 48 16) := by
  rw [← unpack_packInit, packInitFrame_of_init h]

/-- `OP_FRAME` carries out the instruction its frame decodes to, at the sampled clock (45_transfer_control R262). -/
theorem exec_opFrame_decodeFrame (buf : Frame) (now : Word) (s : State) :
    exec (.opFrame buf now) s = exec (decodeFrame buf) { s with now := now } := by
  rcases decodeFrame_cases buf with ⟨hkind, hd⟩ | ⟨hkind, hd⟩ <;>
    rcases exec_opFrame buf now s with ⟨hkind', e⟩ | ⟨hkind', e⟩
  · rw [hd, e, exec_init, unpackInitFrame_of_init hkind]
    rfl
  · rw [hkind] at hkind'
    cases hkind'
  · rw [hkind] at hkind'
    cases hkind'
  · rw [hd, e]
    rfl

/-- Settles O10: the step is `OP_FRAME` on the frame, and the decoder reads from it what `OP_FRAME` carries out. -/
theorem stepRunsTheDecodedFrame : Obligations.StepRunsTheDecodedFrame := by
  intro s buf now reply rest i hport hdecode _
  rw [decode_frame] at hdecode
  cases hdecode
  rw [step_request hport]
  exact exec_opFrame_decodeFrame buf now _

/-! ### Reset and Init -/

/-- Settles O12: both operations reset the registers alone (R260, R261). -/
theorem resetAndAbortLeaveTheResetValues : Obligations.ResetAndAbortLeaveTheResetValues := by
  intro s i hi
  refine ⟨s.clearOutputs.resetRegisters, by rcases hi with rfl | rfl <;> rfl, rfl, rfl, rfl, rfl, rfl, rfl, rfl, rfl,
    rfl, rfl, fun p hp => padLine_get p hp, rfl, rfl, rfl, rfl, rfl, rfl, rfl, ⟨rfl, rfl, rfl⟩, fun _ => rfl, rfl, rfl⟩

theorem initValid_initOperands (lc : BitVec 15) (fc : Word) (ic : Half) :
    initValid (initOperands lc fc ic) =
      decide (ic = low16 (crc32Of ((packInitFrame lc fc ic).toList.take 6))) := rfl

theorem exec_opFrame_packInit (lc : BitVec 15) (fc : Word) (ic : Half) (now : Word) (s : State) :
    exec (.opFrame (packInitFrame lc fc ic) now) s = exec (.init lc fc ic) { s with now := now } := by
  rw [exec_opFrame_decodeFrame, decodeFrame_packInit]

/-- Settles O13: the check passes, so both operations accept the frame (R263, R264). -/
theorem validInitStartsATransfer : Obligations.ValidInitStartsATransfer := by
  intro s lc fc ic now hcheck
  have hvalid : initValid (initOperands lc fc ic) = true := by
    rw [initValid_initOperands, decide_eq_true hcheck]
  have hexec : exec (.init lc fc ic) { s with now := now } =
      .next (initAccept (initOperands lc fc ic) { s.clearOutputs with now := now }) := by
    rw [exec_init, processInit, if_pos hvalid]
    rfl
  exact ⟨_, hexec, (exec_opFrame_packInit lc fc ic now s).trans hexec, rfl, rfl, rfl, ⟨rfl, rfl, rfl⟩, fun _ => rfl,
    rfl, rfl⟩

/-- Settles O14: the check fails, so both operations reject the frame (R263, R265). -/
theorem badInitOnlySetsItsFlags : Obligations.BadInitOnlySetsItsFlags := by
  intro s lc fc ic now hcheck
  have hbad : ¬ initValid (initOperands lc fc ic) = true := by
    rw [initValid_initOperands, decide_eq_false hcheck]
    exact Bool.false_ne_true
  have hexec : exec (.init lc fc ic) { s with now := now } =
      .next (initReject { s.clearOutputs with now := now }) := by
    rw [exec_init, processInit, if_neg hbad]
    rfl
  exact ⟨_, hexec, (exec_opFrame_packInit lc fc ic now s).trans hexec, rfl, rfl, ⟨rfl, rfl, rfl⟩, fun _ => rfl, rfl,
    rfl⟩

end Sys2Proof.Machine
end

section
/-! Segment frames (42_segment_reassembly): the frames that are dropped, the frame that repeats an accepted one, and the
frames of a whole line in any order. -/

namespace Sys2Proof.Machine

/-! ### Dropped and ignored frames -/

/-- Settles O20: the idle end of `SEG`, with the outputs cleared (R181). -/
theorem segmentWhileIdleIsIgnored : Obligations.SegmentWhileIdleIsIgnored :=
  fun s _ _ _ _ hidle => processSegment_idle _ (s := s.clearOutputs) hidle

section
variable {m : SegFields} {s : State}

theorem adoptTotal_badRange (hno : s.ctx.segmentTotal = noTotal)
    (hrange : m.segmentTotal < 1#8 ∨ 9#8 < m.segmentTotal) : adoptTotal m s = none := (if_pos hno).trans (if_pos hrange)

theorem adoptTotal_adopts (hno : s.ctx.segmentTotal = noTotal)
    (hrange : ¬ (m.segmentTotal < 1#8 ∨ 9#8 < m.segmentTotal)) :
    adoptTotal m s = some { s with ctx.segmentTotal := m.segmentTotal, ctx.segmentsReceived := 0#9 } :=
  (if_pos hno).trans (if_neg hrange)

theorem adoptTotal_differs (hknown : s.ctx.segmentTotal ≠ noTotal) (h : m.segmentTotal ≠ s.ctx.segmentTotal) :
    adoptTotal m s = none := (if_neg hknown).trans (if_pos h)

theorem adoptTotal_agrees (hknown : s.ctx.segmentTotal ≠ noTotal) (h : m.segmentTotal = s.ctx.segmentTotal) :
    adoptTotal m s = some s := (if_neg hknown).trans (if_neg (not_not_intro h))

end

/-- A frame of the awaited line that fails acceptance rule 2 is dropped (R183). -/
theorem processSegment_notAdopted {m : SegFields} {s : State} (hprog : s.ctx.inProgress = true)
    (hline : m.lineNum = s.ctx.currentLineIndex) (hno : adoptTotal m s = none) :
    processSegment m s = .next (s.raise .segmentMismatch) := by
  rw [processSegment, if_neg (by simp [hprog]), if_neg (not_not_intro hline), hno]
  rfl

/-- A frame that passes rule 2 and whose index is not below the total is dropped with the total adopted (R184, R191). -/
theorem processSegment_pastTotal {m : SegFields} {s u : State} (hprog : s.ctx.inProgress = true)
    (hline : m.lineNum = s.ctx.currentLineIndex) (hu : adoptTotal m s = some u)
    (hidx : u.ctx.segmentTotal ≤ m.segmentIndex) : processSegment m s = .next (u.raise .segmentMismatch) := by
  rw [processSegment, if_neg (by simp [hprog]), if_neg (not_not_intro hline), hu]
  exact if_pos hidx

/-- Settles O18: neither count passes acceptance rule 2. -/
theorem segmentCountMismatchIsDropped : Obligations.SegmentCountMismatchIsDropped := by
  intro s ln si st p hprog hline hbad
  have hno : adoptTotal (segOperands ln si st p) s.clearOutputs = none := by
    rcases hbad with ⟨hno, hrange⟩ | ⟨hknown, hdiffers⟩
    · have hrange' : st.setWidth 8 < 1#8 ∨ 9#8 < st.setWidth 8 := by
        rcases hrange with rfl | hhigh
        · exact .inl (by decide)
        · exact .inr (by bv_omega)
      exact adoptTotal_badRange (s := s.clearOutputs) hno hrange'
    · exact adoptTotal_differs (s := s.clearOutputs) hknown hdiffers
  exact processSegment_notAdopted (m := segOperands ln si st p) (s := s.clearOutputs) hprog hline hno

/-- Settles O19: rule 2 adopts the count or agrees with it, and rule 3 then fails. -/
theorem segmentIndexPastTheTotalIsDropped : Obligations.SegmentIndexPastTheTotalIsDropped := by
  intro s ln si st p hprog hline hidx
  have hidx' : st.setWidth 8 ≤ si.setWidth 8 := by bv_omega
  refine ⟨fun hno hlow hhigh => ?adopted, fun hknown htotal => ?agreed⟩
  case adopted =>
    have hrange : ¬ ((st.setWidth 8 : Byte) < 1#8 ∨ 9#8 < (st.setWidth 8 : Byte)) := by bv_omega
    have hu := adoptTotal_adopts (m := segOperands ln si st p) (s := s.clearOutputs) hno hrange
    exact processSegment_pastTotal (m := segOperands ln si st p) (s := s.clearOutputs) hprog hline hu hidx'
  case agreed =>
    have hu := adoptTotal_agrees (m := segOperands ln si st p) (s := s.clearOutputs) hknown htotal.symm
    exact processSegment_pastTotal (m := segOperands ln si st p) (s := s.clearOutputs) hprog hline hu
      (htotal.symm ▸ hidx')

/-! ### The timers -/

/-- No time has passed since a frame at the sampled clock, so no timeout has run out (60_exceptions R332). -/
theorem not_timedOut_of_lastFrame (cfg : Config) {now : Word} {c : Context} (h : c.lastFrameMs = now) :
    transferTimedOut cfg now c = false ∧ segmentTimedOut cfg now c = false := by
  have helapsed : elapsed now c = 0#32 := by rw [elapsed, h, BitVec.sub_self]
  have hnever (v : Word) : decide (v < elapsed now c) = false := by
    rw [helapsed]
    exact decide_eq_false BitVec.not_lt_zero
  exact ⟨hnever _, by rw [segmentTimedOut, hnever, Bool.and_false]⟩

/-- Settles O16: an accepted frame carries the sampled clock into `last_frame_ms`. -/
theorem acceptedSegmentRestartsTheTimers : Obligations.AcceptedSegmentRestartsTheTimers := by
  intro s ln si st p now hprog hline hlow hhigh htotal hidx
  have hexec := exec_seg_accepted (s := { s with now := now }) p hprog hline hlow hhigh htotal hidx
  have hframe : exec (.opFrame (packSegFrame ln si st p) now) s = exec (.seg ln si st p) { s with now := now } := by
    rw [exec_opFrame_decodeFrame, decodeFrame_packSeg]
  exact ⟨_, hframe.trans hexec, hexec, rfl, not_timedOut_of_lastFrame _ rfl⟩

/-! ### Storing more segments of a line whose count is known -/

theorem totalAdopted_of_known {n : Byte} {s : State} (htotal : s.ctx.segmentTotal = n) (hn : n ≠ noTotal) :
    totalAdopted n s = s := by
  simp only [totalAdopted, htotal, if_neg hn]
  rw [← htotal]

theorem clearOutputs_of_empty {s : State} (h : s.out = Outputs.empty) : s.clearOutputs = s := by
  rw [State.clearOutputs, ← h]

/-- `SEG` on an accepted frame when the count is known and nothing was handed out before. -/
theorem exec_seg_known {s : State} {ln : BitVec 15} {si st : BitVec 4} (p : Vector Byte 5)
    (hprog : s.ctx.inProgress = true) (hline : ln.setWidth 16 = s.ctx.currentLineIndex) (hlow : 1#4 ≤ st)
    (hhigh : st ≤ 9#4) (htotal : s.ctx.segmentTotal = st.setWidth 8) (hidx : si < st)
    (hout : s.out = Outputs.empty) :
    exec (.seg ln si st p) s = .next (segmentStored (segOperands ln si st p) s) := by
  have hn : (st.setWidth 8 : Byte) ≠ noTotal := by rw [noTotal]; bv_omega
  rw [exec_seg_accepted p hprog hline hlow hhigh (.inr htotal) hidx, clearOutputs_of_empty hout,
    totalAdopted_of_known htotal hn]

/-- Marking a segment twice is marking it once. -/
theorem segmentStored_received_twice (m n : SegFields) (s : State) (h : n.segmentIndex = m.segmentIndex) :
    (segmentStored n (segmentStored m s)).ctx.segmentsReceived = (segmentStored m s).ctx.segmentsReceived := by
  simp only [segmentStored, h, BitVec.or_assoc, BitVec.or_self]

/-- Storing the same bytes at the same place twice is storing them once. -/
theorem lineStore_twice (addr : Nat) (bytes : List Byte) (l : Line) :
    lineStore addr bytes (lineStore addr bytes l) = lineStore addr bytes l := by
  apply Vector.ext
  intro p hp
  rw [lineStore_get _ _ _ _ hp]
  split
  · rw [lineStore_get _ _ _ _ hp, dif_pos ‹_›]
  · rfl

/-- Settles O21: the repeated frame is stored over the accepted one, whose count and bit it finds set. -/
theorem repeatedSegmentOverwritesItsSlot : Obligations.RepeatedSegmentOverwritesItsSlot := by
  intro s t ln si st p q now hprog hline hlow hhigh htotal hidx ht
  rw [exec_seg_accepted p hprog hline hlow hhigh htotal hidx] at ht
  cases ht
  have hslot : slotAddress (segOperands ln si st q).segmentIndex = 5 * si.toNat := slotAddress_setWidth si
  have hfits : slotAddress (segOperands ln si st q).segmentIndex + 5 ≤ 45 := by
    rw [hslot]
    bv_omega
  have hexec := exec_seg_known (s := { segmentStored (segOperands ln si st p)
    (totalAdopted (st.setWidth 8) s.clearOutputs) with now := now }) q hprog hline hlow hhigh rfl hidx rfl
  refine ⟨_, hexec, ?slot, ?others, ?registers, rfl, ⟨⟨rfl, rfl, rfl⟩, fun _ => rfl, rfl, rfl⟩, ?same⟩
  case slot =>
    intro k hk
    rw [← hslot]
    exact segmentStored_lineByte_slot _ hfits hk
  case others =>
    intro a ha
    rw [← hslot] at ha
    exact segmentStored_lineByte_other _ hfits ha
  case registers =>
    have hbits := segmentStored_received_twice (segOperands ln si st p) (segOperands ln si st q)
      (totalAdopted (st.setWidth 8) s.clearOutputs) rfl
    simp only [segmentStored] at hbits ⊢
    rw [hbits]
  case same =>
    rintro rfl
    have hbits := segmentStored_received_twice (segOperands ln si st q) (segOperands ln si st q)
      (totalAdopted (st.setWidth 8) s.clearOutputs) rfl
    simp only [segmentStored] at hbits ⊢
    rw [hbits, lineStore_twice]

/-! ### The segments of a line -/

/-- The state after the segments `order` of line `l` were stored, one after the other (R185, R189). -/
def segmentsStored (ln : BitVec 15) (total : BitVec 4) (l : Line) (order : List (BitVec 4)) (s : State) : State :=
  order.foldl (fun u j => segmentStored (segOperands ln j total (slotOf l j.toNat)) u) s

@[simp] theorem segmentsStored_nil (ln : BitVec 15) (total : BitVec 4) (l : Line) (s : State) :
    segmentsStored ln total l [] s = s := rfl

@[simp] theorem segmentsStored_cons (ln : BitVec 15) (total : BitVec 4) (l : Line) (j : BitVec 4)
    (order : List (BitVec 4)) (s : State) : segmentsStored ln total l (j :: order) s =
      segmentsStored ln total l order (segmentStored (segOperands ln j total (slotOf l j.toNat)) s) := rfl

/-- Storing segments writes the line, the received bits and the time stamp only. -/
theorem segmentsStored_frame (ln : BitVec 15) (total : BitVec 4) (l : Line) (order : List (BitVec 4)) (s : State) :
    segmentsStored ln total l order s = { s with
      ctx.lineBuf := (segmentsStored ln total l order s).ctx.lineBuf
      ctx.segmentsReceived := (segmentsStored ln total l order s).ctx.segmentsReceived
      ctx.lastFrameMs := if order = [] then s.ctx.lastFrameMs else s.now } := by
  induction order generalizing s with
  | nil => rfl
  | cons j order ih =>
    rw [segmentsStored_cons, ih]
    simp [segmentStored]

theorem segOperands_slot_fits {ln : BitVec 15} {j total : BitVec 4} {p : Vector Byte 5} (hj : j < total)
    (htotal : total ≤ 9#4) : slotAddress (segOperands ln j total p).segmentIndex + 5 ≤ 45 := by
  have hslot : slotAddress (segOperands ln j total p).segmentIndex = 5 * j.toNat := slotAddress_setWidth j
  rw [hslot]
  bv_omega

theorem segmentsStored_received {ln : BitVec 15} {total : BitVec 4} {l : Line} {order : List (BitVec 4)} (s : State)
    (hlt : ∀ j ∈ order, j < total) (htotal : total ≤ 9#4) (i : Nat) :
    (segmentsStored ln total l order s).ctx.segmentsReceived.getLsbD i =
      (decide (∃ j ∈ order, j.toNat = i) || s.ctx.segmentsReceived.getLsbD i) := by
  induction order generalizing s with
  | nil => simp
  | cons j order ih =>
    obtain ⟨hj, hrest⟩ := List.forall_mem_cons.mp hlt
    have hnine : (segOperands ln j total (slotOf l j.toNat)).segmentIndex < 9#8 := by
      simp only [segOperands]
      bv_omega
    have hindex : (segOperands ln j total (slotOf l j.toNat)).segmentIndex.toNat = j.toNat := nibble_toNat j
    rw [segmentsStored_cons, ih _ hrest, segmentStored_received _ hnine, hindex]
    simp only [List.mem_cons, exists_eq_or_imp, Bool.decide_or, eq_comm (a := i)]
    ac_rfl

theorem slotOf_get (l : Line) (j k : Nat) (hk : k < 5) : (slotOf l j)[k] = lineByte l (5 * j + k) := by
  interval_cases k <;> rfl

/-- A byte of a segment that was stored reads as the line's, every other as before (20_memory R71). -/
theorem segmentsStored_lineByte {ln : BitVec 15} {total : BitVec 4} {l : Line} {order : List (BitVec 4)} (s : State)
    (hlt : ∀ j ∈ order, j < total) (htotal : total ≤ 9#4) (q : Nat) :
    lineByte (segmentsStored ln total l order s).ctx.lineBuf q =
      if ∃ j ∈ order, j.toNat = q / 5 then lineByte l q else lineByte s.ctx.lineBuf q := by
  induction order generalizing s with
  | nil => simp
  | cons j order ih =>
    obtain ⟨hj, hrest⟩ := List.forall_mem_cons.mp hlt
    have hslot : slotAddress (segOperands ln j total (slotOf l j.toNat)).segmentIndex = 5 * j.toNat :=
      slotAddress_setWidth j
    have hfits := segOperands_slot_fits (ln := ln) (p := slotOf l j.toNat) hj htotal
    rw [segmentsStored_cons, ih _ hrest]
    simp only [List.mem_cons, exists_eq_or_imp]
    by_cases hin : ∃ i ∈ order, i.toNat = q / 5
    · rw [if_pos hin, if_pos (.inr hin)]
    · rw [if_neg hin]
      by_cases hq : j.toNat = q / 5
      · have hread := segmentStored_lineByte_slot s hfits (k := q % 5) (Nat.mod_lt _ (by omega))
        rw [hslot, show 5 * j.toNat + q % 5 = q by omega] at hread
        rw [if_pos (.inl hq), hread]
        exact (slotOf_get l _ _ _).trans (congrArg _ (by omega))
      · rw [if_neg (not_or_intro hq hin)]
        exact segmentStored_lineByte_other s hfits (by rw [hslot]; omega)

/-- Segment frames of a line whose count is known are all accepted. -/
theorem execAll_segments_known {ln : BitVec 15} {total : BitVec 4} {l : Line} {order : List (BitVec 4)} {s : State}
    (hprog : s.ctx.inProgress = true) (hline : ln.setWidth 16 = s.ctx.currentLineIndex) (hlow : 1#4 ≤ total)
    (hhigh : total ≤ 9#4) (htotal : s.ctx.segmentTotal = total.setWidth 8) (hout : s.out = Outputs.empty)
    (hlt : ∀ j ∈ order, j < total) :
    execAll (order.map (segmentOf ln total l)) s = .next (segmentsStored ln total l order s) := by
  induction order generalizing s with
  | nil => rfl
  | cons j order ih =>
    obtain ⟨hj, hrest⟩ := List.forall_mem_cons.mp hlt
    rw [List.map_cons, execAll, segmentOf, exec_seg_known _ hprog hline hlow hhigh htotal hj hout]
    exact ih hprog hline htotal hout hrest

/-- The first frame of a line adopts the count; it and those after it are stored. -/
theorem execAll_segments {ln : BitVec 15} {total : BitVec 4} {l : Line} {order : List (BitVec 4)} {s : State}
    (hprog : s.ctx.inProgress = true) (hline : ln.setWidth 16 = s.ctx.currentLineIndex) (hlow : 1#4 ≤ total)
    (hhigh : total ≤ 9#4) (hno : s.ctx.segmentTotal = noTotal) (hlt : ∀ j ∈ order, j < total) (hne : order ≠ []) :
    execAll (order.map (segmentOf ln total l)) s =
      .next (segmentsStored ln total l order (totalAdopted (total.setWidth 8) s.clearOutputs)) := by
  cases order with
  | nil => exact absurd rfl hne
  | cons j order =>
    obtain ⟨hj, hrest⟩ := List.forall_mem_cons.mp hlt
    rw [List.map_cons, execAll, segmentOf, exec_seg_accepted _ hprog hline hlow hhigh (.inl hno) hj]
    exact execAll_segments_known hprog hline hlow hhigh rfl rfl hrest

/-- Settles O22: the frames are all stored, and each byte and bit of the line is that of its segment, whatever the
order. -/
theorem segmentsInAnyOrderBuildTheLine : Obligations.SegmentsInAnyOrderBuildTheLine := by
  intro s ln total l order hprog hline hlow hhigh hno hpad hlt hall
  have hmem : ∀ i, (∃ j ∈ order, j.toNat = i) ↔ i < total.toNat := by
    intro i
    constructor
    · rintro ⟨j, hj, rfl⟩
      exact hlt j hj
    · intro hi
      have hi' : (BitVec.ofNat 4 i).toNat = i := by rw [BitVec.toNat_ofNat]; omega
      exact ⟨BitVec.ofNat 4 i, hall _ (by rw [BitVec.lt_def, hi']; exact hi), hi'⟩
  have hne : order ≠ [] := by
    rintro rfl
    obtain ⟨j, hj, -⟩ := (hmem 0).mpr hlow
    cases hj
  have hframe := segmentsStored_frame ln total l order (totalAdopted (total.setWidth 8) s.clearOutputs)
  rw [if_neg hne] at hframe
  refine ⟨_, execAll_segments hprog hline hlow hhigh hno hlt hne, ?ready, ?bytes, ?registers, ?rest⟩
  case ready =>
    have htotal : (segmentsStored ln total l order (totalAdopted (total.setWidth 8) s.clearOutputs)).ctx.segmentTotal =
        total.setWidth 8 := by rw [hframe]; rfl
    have hnine : (total.setWidth 8 : Byte) ≤ 9#8 := by bv_omega
    rw [ready_iff, htotal, toInt_toNat_of_le_nine hnine, nibble_toNat]
    refine ⟨by rw [noTotal]; bv_omega, fun i hi => ?_⟩
    rw [segmentsStored_received _ hlt hhigh, decide_eq_true ((hmem i).mpr hi), Bool.true_or]
  case bytes =>
    intro q hq
    have hcut : q / 5 < total.toNat ↔ q < 5 * total.toNat := by omega
    rw [← lineByte_get _ _ hq, segmentsStored_lineByte _ hlt hhigh, lineByte_get _ _ hq, lineByte_get _ _ hq]
    simp only [hmem, hcut, totalAdopted, State.clearOutputs_ctx, hpad, padLine_get]
  case registers => rw [hframe]; rfl
  case rest =>
    rw [hframe]
    exact ⟨⟨rfl, rfl, rfl⟩, fun _ => rfl, rfl, rfl⟩

end Sys2Proof.Machine
end

section
/-! The record handlers as operations (44_record_dispatch): the bounds and the write of a data record, the EOF record
and the two address records. -/

namespace Sys2Proof.Machine

/-! ### Data records: the bounds -/

theorem exec_recData (r : HexRecord) (s : State) :
    exec (.recData r) s = handlerOutcome (recordData r s.clearOutputs) := rfl

theorem minWord_toNat (a b : Word) : (minWord a b).toNat = min a.toNat b.toNat := by
  unfold minWord
  split
  · exact (min_eq_left ‹a ≤ b›).symm
  · exact (min_eq_right (BitVec.not_le.mp ‹_›).le).symm

theorem maxWord_toNat (a b : Word) : (maxWord a b).toNat = max a.toNat b.toNat := by
  unfold maxWord
  split
  · exact (max_eq_right ‹a ≤ b›).symm
  · exact (max_eq_left (BitVec.not_le.mp ‹_›).le).symm

theorem imageAddress_toNat (c : Context) (r : HexRecord) :
    (imageAddress c r).toNat = (c.baseAddress.toNat + r.address.toNat) % 2 ^ 32 := by
  simp [imageAddress]

/-- Settles O23: the two bounds are all that the handler writes, whatever its result (R251). -/
theorem dataRecordUpdatesTheBounds : Obligations.DataRecordUpdatesTheBounds := by
  intro r s
  obtain ⟨hctx, hcfg, hport, hnow, hreply, -⟩ := recordData_spec r s.clearOutputs
  refine ⟨_, _, _, _, exec_recData r s, rfl, hctx, ?lo, ?hi, ⟨hcfg, hport, hreply⟩, hnow⟩
  case lo =>
    rw [minWord_toNat, imageAddress_toNat]
    rfl
  case hi =>
    rw [maxWord_toNat, BitVec.toNat_ofNat, endAddress, imageAddress_toNat]
    rfl

/-! ### Data records: the write -/

theorem recordWrite_dry {w : Word} {bs : List Byte} {s : State} (h : s.cfg.dryRun = true) :
    recordWrite w bs s = (s, true) := if_pos h

theorem recordWrite_ram {w : Word} {bs : List Byte} {s : State} (hdry : s.cfg.dryRun = false)
    (hram : ¬ inFlash s.cfg s.cfg.flashBufferBase = true) : recordWrite w bs s = (s.ramCopy w bs, true) := by
  rw [recordWrite, if_neg (by simp [hdry]), if_neg hram]

theorem recordWrite_flash {w : Word} {bs : List Byte} {s : State} (hdry : s.cfg.dryRun = false)
    (hflash : inFlash s.cfg s.cfg.flashBufferBase = true) (hreply : s.flashReply = 0) :
    recordWrite w bs s = (s.flashWriteBlock w bs, true) := by
  rw [recordWrite, if_neg (by simp [hdry]), if_pos hflash, if_pos hreply]

theorem recordWrite_flashFailed {w : Word} {bs : List Byte} {s : State} (hdry : s.cfg.dryRun = false)
    (hflash : inFlash s.cfg s.cfg.flashBufferBase = true) (hreply : s.flashReply ≠ 0) :
    recordWrite w bs s = ((s.flashWriteBlock w bs).raise .flashWriteError, false) := by
  rw [recordWrite, if_neg (by simp [hdry]), if_pos hflash, if_neg hreply]

/-- The state in which a data record is written: its bounds are taken up, and nothing is handed out yet (R233). -/
def boundsUpdated (r : HexRecord) (s : State) : State :=
  s.clearOutputs.updateBounds (imageAddress s.ctx r) (endAddress s.ctx r)

@[simp] theorem boundsUpdated_out (r : HexRecord) (s : State) : (boundsUpdated r s).out = Outputs.empty := rfl

/-- `REC_DATA` on a record within the window (44_record_dispatch R234, R235). -/
theorem exec_recData_in {r : HexRecord} {s : State} (h : endAddress s.ctx r ≤ windowEnd s.cfg) :
    exec (.recData r) s = handlerOutcome (recordWrite (stageAddress s.cfg (imageAddress s.ctx r)) (dataBytes r)
      (boundsUpdated r s)) := by
  rw [exec_recData, recordData_in (s := s.clearOutputs) h]
  rfl

theorem exec_recData_out {r : HexRecord} {s : State} (h : windowEnd s.cfg < endAddress s.ctx r) :
    exec (.recData r) s = handlerOutcome ((boundsUpdated r s).raise .addressOutOfRange, false) := by
  rw [exec_recData, recordData_out (s := s.clearOutputs) h]
  rfl

theorem dataBytes_get (r : HexRecord) (k : Nat) (hk : k < (dataBytes r).length) (h16 : k < 16) :
    (dataBytes r)[k] = r.data[k] := by
  simp [dataBytes]

/-- What STAGE reads after a block of at most sixteen bytes was written at `w` (20_memory R80, R82). -/
theorem read_block_at {m : Memory} {w : Word} {bs : List Byte} {k : Nat} (hk : k < bs.length) (hlen : bs.length ≤ 16) :
    Memory.read (Memory.writeBytes m w bs) (byteAddress w k) = some bs[k] :=
  Memory.read_writeBytes_at bs m w k hk (by omega)

theorem read_block_other {m : Memory} {w : Word} {bs : List Byte} {n a : Nat} (hlen : bs.length = n)
    (h : ∀ k < n, a ≠ byteAddress w k) : Memory.read (Memory.writeBytes m w bs) a = Memory.read m a :=
  Memory.read_writeBytes_other bs m w a (hlen ▸ h)

/-- Settles O24: the flash write that succeeds and the copy leave the same STAGE. -/
theorem dataRecordWritesItsBytes : Obligations.DataRecordWritesItsBytes := by
  intro r s hcount hend hdry hok
  have hlen := dataBytes_length hcount
  have hlen16 : (dataBytes r).length ≤ 16 := hlen.trans_le hcount
  have hat : ∀ k (h : k < 16), k < r.byteCount.toNat →
      Memory.read (Memory.writeBytes s.stage (stageAddress s.cfg (imageAddress s.ctx r)) (dataBytes r))
        (byteAddress (stageAddress s.cfg (imageAddress s.ctx r)) k) = some r.data[k] := fun k h16 hk => by
    rw [read_block_at (hk.trans_eq hlen.symm) hlen16, dataBytes_get]
  have hother : ∀ a, (∀ k < r.byteCount.toNat, a ≠ byteAddress (stageAddress s.cfg (imageAddress s.ctx r)) k) →
      Memory.read (Memory.writeBytes s.stage (stageAddress s.cfg (imageAddress s.ctx r)) (dataBytes r)) a =
        Memory.read s.stage a := fun a ha => read_block_other hlen ha
  rw [exec_recData_in hend]
  by_cases hflash : inFlash s.cfg s.cfg.flashBufferBase = true
  · obtain ⟨hstage, hfree⟩ := State.flashWriteBlock_ok (stageAddress s.cfg (imageAddress s.ctx r)) (dataBytes r)
      (boundsUpdated r s) (hok hflash)
    rw [recordWrite_flash (s := boundsUpdated r s) hdry hflash (hok hflash)]
    refine ⟨_, rfl, rfl, by simp [Outputs.empty], by simp [Outputs.empty], ?_, ?_, by simp [hflash], hfree⟩
    · rw [State.setRet_stage, hstage]
      exact hat
    · rw [State.setRet_stage, hstage]
      exact hother
  · rw [recordWrite_ram (s := boundsUpdated r s) hdry hflash]
    exact ⟨_, rfl, rfl, rfl, rfl, hat, hother, by simp [hflash, Outputs.empty], rfl⟩

/-- Settles O25: neither end of the bound check reaches the write. -/
theorem dataRecordLeavesStageAlone : Obligations.DataRecordLeavesStageAlone := by
  intro r s
  refine ⟨fun hout => ?outside, fun hend hdry => ?dryRun⟩
  case outside =>
    rw [exec_recData_out hout]
    exact ⟨_, rfl, rfl, fun _ => rfl, rfl⟩
  case dryRun =>
    rw [exec_recData_in hend, recordWrite_dry (s := boundsUpdated r s) hdry]
    exact ⟨_, rfl, rfl, fun _ => rfl, rfl⟩

theorem failedFlashBytes_get (n m k : Nat) (hk : k < (failedFlashBytes n m).length) :
    (failedFlashBytes n m)[k] = Config.failedFlashByte (n + k) := by
  simp [failedFlashBytes]

/-- Settles O26: a failed write stores as many free values as the record has bytes, at the same addresses. -/
theorem failedFlashWriteRejectsTheRecord : Obligations.FailedFlashWriteRejectsTheRecord := by
  intro r s hcount hend hdry hflash hreply
  have hlen := dataBytes_length hcount
  obtain ⟨hstage, hfree⟩ := State.flashWriteBlock_failed (stageAddress s.cfg (imageAddress s.ctx r)) (dataBytes r)
    (boundsUpdated r s) hreply
  rw [hlen] at hstage hfree
  rw [exec_recData_in hend, recordWrite_flashFailed (s := boundsUpdated r s) hdry hflash hreply]
  have hfailed : (failedFlashBytes s.freeCount r.byteCount.toNat).length = r.byteCount.toNat :=
    failedFlashBytes_length _ _
  refine ⟨_, rfl, ?out, ?others, ?written, hfree⟩
  case out =>
    simp only [State.setRet_out, State.raise_out, State.flashWriteBlock_out]
    rfl
  case others =>
    intro a ha
    rw [State.setRet_stage, State.raise_stage, hstage]
    exact read_block_other hfailed ha
  case written =>
    intro k hk
    rw [State.setRet_stage, State.raise_stage, hstage]
    refine (read_block_at (hk.trans_eq hfailed.symm) (hfailed.trans_le hcount)).trans ?_
    rw [failedFlashBytes_get]

/-- Settles O27: with the image origin at the window's base the staging address is the image address, and a block that
passes the bound check ends within the window. -/
theorem stagedBytesStayInTheWindow : Obligations.StagedBytesStayInTheWindow := by
  intro r s t a horigin hlow htop hexec houtside
  obtain ⟨-, -, -, -, -, hstage⟩ := recordData_spec r s.clearOutputs
  have ht : t.stage = (recordData r s.clearOutputs).1.stage := by
    rw [exec_recData] at hexec
    cases hexec
    rfl
  have hw : stageAddress s.cfg (imageAddress s.ctx r) = imageAddress s.ctx r := by
    rw [stageAddress, horigin]
    bv_omega
  rw [ht]
  rcases hstage with hsame | ⟨hend, cs, hlen, hwrite⟩
  · rw [hsame, State.clearOutputs_stage]
  · have hend' : (imageAddress s.ctx r).toNat + r.byteCount.toNat ≤ windowEnd s.cfg := hend
    have hlow' : s.cfg.flashBufferBase.toNat ≤ (imageAddress s.ctx r).toNat := hlow
    have hcs : cs.length ≤ r.byteCount.toNat := hlen.trans_le (by simp [dataBytes])
    rw [hwrite]
    refine read_block_other rfl fun k hk hak => houtside ?_
    have hin : byteAddress (imageAddress s.ctx r) k = (imageAddress s.ctx r).toNat + k :=
      Nat.mod_eq_of_lt (by omega)
    have hak' : a = (imageAddress s.ctx r).toNat + k := hak.trans ((congrArg (byteAddress · k) hw).trans hin)
    exact ⟨by omega, by omega⟩

/-! ### EOF and address records -/

/-- Settles O28: the two results of the handler, by the test of the last line. -/
theorem eofRecordOnlyAtTheLastLine : Obligations.EofRecordOnlyAtTheLastLine := by
  intro r s
  have hlast : decide (s.ctx.expectedLines.toNat = s.ctx.currentLineIndex.toNat + 1) = atLastLine s.ctx :=
    decide_eq_decide.mpr eq_comm
  refine ⟨_, rfl, ?_⟩
  rw [hlast, recordEof, State.clearOutputs_ctx]
  cases atLastLine s.ctx with
  | true =>
    rw [if_pos rfl, Bool.or_true]
    exact ⟨rfl, rfl, ⟨rfl, rfl, rfl⟩, fun _ => rfl, rfl, rfl⟩
  | false =>
    rw [if_neg Bool.false_ne_true, Bool.or_false]
    exact ⟨rfl, rfl, ⟨rfl, rfl, rfl⟩, fun _ => rfl, rfl, rfl⟩

/-- A data byte at or past the byte count of a well-formed record is 0x00 (43_hex_line R215). -/
theorem data_zero_of_wellFormed {ty : Byte} {r : HexRecord} (h : recordWellFormed ty r = true) {k : Nat} (hk : k < 16)
    (hcount : r.byteCount.toNat ≤ k) : r.data[k] = 0#8 := by
  obtain ⟨-, htail, -⟩ := (recordWellFormed_iff ty r).mp h
  rw [tailZero, List.all_eq_true] at htail
  refine of_decide_eq_true (htail _ (List.mem_drop_iff_getElem.mpr ⟨k - r.byteCount.toNat, ?_, ?_⟩))
  · rw [Vector.length_toList]
    omega
  · simp only [Nat.add_sub_cancel' hcount, Vector.getElem_toList]

/-- The data word of a well-formed record with fewer than two data bytes (decision D18). -/
theorem dataWord_of_short {ty : Byte} {r : HexRecord} (h : recordWellFormed ty r = true) :
    (r.byteCount = 0#8 → (dataWord r).toNat = 0) ∧
      (r.byteCount = 1#8 → (dataWord r).toNat = r.data[0].toNat * 256) := by
  rw [dataWord_toNat]
  constructor <;> intro hcount
  · simp [data_zero_of_wellFormed h (k := 0) (by omega) (by simp [hcount]),
      data_zero_of_wellFormed h (k := 1) (by omega) (by simp [hcount])]
  · simp [data_zero_of_wellFormed h (k := 1) (by omega) (by simp [hcount])]

/-- Settles O29: the base is sixteen times the data word. -/
theorem segmentAddressRecordSetsTheBase : Obligations.SegmentAddressRecordSetsTheBase := by
  intro r s
  have hvalue := segmentBase_toNat r
  have hword := dataWord_toNat r
  have h0 := r.data[0].isLt
  have h1 := r.data[1].isLt
  refine ⟨_, segmentBase r, rfl, rfl, rfl, by rw [hvalue, hword], by omega, fun hwf hcount => ?noData,
    fun hwf hcount => ?oneByte, ⟨rfl, rfl, rfl⟩, fun _ => rfl, rfl, rfl⟩
  case noData => exact BitVec.eq_of_toNat_eq (by simp [hvalue, (dataWord_of_short hwf).1 hcount])
  case oneByte => rw [hvalue, (dataWord_of_short hwf).2 hcount, Nat.mul_assoc]

/-- Settles O30: the base is 65536 times the data word. -/
theorem linearAddressRecordSetsTheBase : Obligations.LinearAddressRecordSetsTheBase := by
  intro r s
  have hvalue := linearBase_toNat r
  have hword := dataWord_toNat r
  have h0 := r.data[0].isLt
  have h1 := r.data[1].isLt
  refine ⟨_, linearBase r, rfl, rfl, rfl, by rw [hvalue, hword], by omega, by omega, fun hwf hcount => ?noData,
    fun hwf hcount => ?oneByte, ⟨rfl, rfl, rfl⟩, fun _ => rfl, rfl, rfl⟩
  case noData => exact BitVec.eq_of_toNat_eq (by simp [hvalue, (dataWord_of_short hwf).1 hcount])
  case oneByte => rw [hvalue, (dataWord_of_short hwf).2 hcount, Nat.mul_assoc]

end Sys2Proof.Machine
end

section
/-! The tick (45_transfer_control section 4): one lemma for each end of its priority list, what it emits, and what line
finalisation does to a line that is rejected, accepted or only different past its text. -/

namespace Sys2Proof.Machine

/-! ### The clock -/

/-- The state in which an operation with a clock operand begins (60_exceptions R331). -/
def State.sampled (now : Word) (s : State) : State := { s.clearOutputs with now := now }

theorem exec_opTick_sampled (now : Word) (s : State) :
    exec (.opTick now) s = .next (tickSteps (s.sampled now)) := rfl

theorem elapsed_toNat (now : Word) (c : Context) :
    (elapsed now c).toNat = (now.toNat + (2 ^ 32 - c.lastFrameMs.toNat)) % 2 ^ 32 := by
  rw [elapsed, BitVec.toNat_sub, Nat.add_comm]

theorem transferTimedOut_iff (cfg : Config) (now : Word) (c : Context) : transferTimedOut cfg now c = true ↔
    cfg.tTransferMs.toNat < (now.toNat + (2 ^ 32 - c.lastFrameMs.toNat)) % 2 ^ 32 := by
  rw [← elapsed_toNat]
  exact decide_eq_true_iff

theorem segmentTimedOut_iff (cfg : Config) (now : Word) (c : Context) : segmentTimedOut cfg now c = true ↔
    ready c = false ∧ cfg.tSegmentMs.toNat < (now.toNat + (2 ^ 32 - c.lastFrameMs.toNat)) % 2 ^ 32 := by
  rw [← elapsed_toNat, segmentTimedOut, Bool.and_eq_true, Bool.not_eq_true', decide_eq_true_iff]
  rfl

theorem segmentTimedOut_of_ready (cfg : Config) (now : Word) {c : Context} (h : ready c = true) :
    segmentTimedOut cfg now c = false := by
  rw [segmentTimedOut, h]
  rfl

/-! ### The ends of the priority list -/

theorem tickSteps_transferTimeout {s : State} (hprog : s.ctx.inProgress = true)
    (htransfer : transferTimedOut s.cfg s.now s.ctx = true) : tickSteps s = s.terminalError .inactivityTimeout := by
  simp only [tickSteps, hprog, htransfer, Bool.true_eq_false, if_false, if_true]

section
variable {s : State} (hprog : s.ctx.inProgress = true) (htransfer : transferTimedOut s.cfg s.now s.ctx = false)
include hprog htransfer

theorem tickSteps_segmentTimeout (hsegment : segmentTimedOut s.cfg s.now s.ctx = true) :
    tickSteps s = (s.raise .segmentTimeout).emit .sendLine := by
  simp only [tickSteps, hprog, htransfer, hsegment, Bool.true_eq_false, Bool.false_eq_true, if_false, if_true]

theorem tickSteps_pendingInit (hsegment : segmentTimedOut s.cfg s.now s.ctx = false)
    (hpending : s.ctx.newInitPending = true) : tickSteps s = reportInit s := by
  simp only [tickSteps, hprog, htransfer, hsegment, hpending, Bool.true_eq_false, Bool.false_eq_true, if_false, if_true]

theorem tickSteps_gate (hsegment : segmentTimedOut s.cfg s.now s.ctx = false) (hpending : s.ctx.newInitPending = false)
    (hready : ready s.ctx = false) (heof : s.ctx.eofReceived = true) : tickSteps s = fileCrcGate s := by
  simp only [tickSteps, hprog, htransfer, hsegment, hpending, hready, heof, Bool.true_eq_false, Bool.false_eq_true,
    if_false, if_true]

theorem tickSteps_quiet (hsegment : segmentTimedOut s.cfg s.now s.ctx = false)
    (hpending : s.ctx.newInitPending = false) (hready : ready s.ctx = false) (heof : s.ctx.eofReceived = false) :
    tickSteps s = s.emit .none := by
  simp only [tickSteps, hprog, htransfer, hsegment, hpending, hready, heof, Bool.true_eq_false, Bool.false_eq_true,
    if_false]

end

theorem tickSteps_finalises {s : State} (h : FinalisesAt s.now s) :
    tickSteps s = (finaliseLine s).emit .sendLine := by
  obtain ⟨hprog, htransfer, hready, hpending⟩ := h
  have hsegment := segmentTimedOut_of_ready s.cfg s.now hready
  simp only [tickSteps, hprog, htransfer, hsegment, hpending, hready, Bool.true_eq_false, Bool.false_eq_true, if_false,
    if_true]

theorem idleTick_report {s : State} (hcfg : s.cfg.idleBadInitReport = true) (hpending : s.ctx.newInitPending = true)
    (herror : s.ctx.initError = true) : idleTick s = (consumeInit s).emit .error := by
  simp only [idleTick, hcfg, hpending, herror, Bool.and_self, if_true]

theorem idleTick_silent {s : State}
    (h : s.cfg.idleBadInitReport = false ∨ s.ctx.newInitPending = false ∨ s.ctx.initError = false) :
    idleTick s = s.emit .none := by
  rcases h with h | h | h <;>
    simp only [idleTick, h, Bool.false_and, Bool.and_false, Bool.false_eq_true, if_false]

/-! ### Idle ticks, timeouts and the report of an Init -/

/-- Settles O35: the two ends of an idle tick (R271, R283). -/
theorem idleTickIsSilent : Obligations.IdleTickIsSilent := by
  intro now s hidle
  rw [exec_opTick_sampled, tickSteps_idle (s := s.sampled now) hidle]
  refine ⟨fun h => ?_, fun hcfg hpending herror => ?_⟩
  · rw [idleTick_silent (s := s.sampled now) h]
    rfl
  · rw [idleTick_report (s := s.sampled now) hcfg hpending herror]
    rfl

/-- Settles O36: the inactivity timeout comes before every other end of a tick in progress. -/
theorem inactivityTimeoutAborts : Obligations.InactivityTimeoutAborts := by
  intro now s hprog hlate
  have htimedOut := (transferTimedOut_iff s.cfg now s.ctx).mpr hlate
  rw [exec_opTick_sampled, tickSteps_transferTimeout (s := s.sampled now) hprog htimedOut]
  exact ⟨_, rfl, rfl, rfl, rfl, ⟨rfl, rfl, rfl⟩, fun _ => rfl, rfl, rfl⟩

/-- Settles O37: the segment timeout has run out, the inactivity timeout has not. -/
theorem segmentTimeoutAsksAgain : Obligations.SegmentTimeoutAsksAgain := by
  intro now s hprog hready hlate hnotYet
  have htransfer : transferTimedOut s.cfg now s.ctx = false := by
    rw [← Bool.not_eq_true, transferTimedOut_iff]
    exact Nat.not_lt.mpr hnotYet
  have hsegment := (segmentTimedOut_iff s.cfg now s.ctx).mpr ⟨hready, hlate⟩
  rw [exec_opTick_sampled, tickSteps_segmentTimeout (s := s.sampled now) hprog htransfer hsegment]
  rfl

/-- Settles O38: no timeout has run out, so the pending Init is next in the priority list. -/
theorem pendingInitIsReported : Obligations.PendingInitIsReported := by
  intro now s hprog htransfer hsegment hpending
  rw [exec_opTick_sampled,
    tickSteps_pendingInit (s := s.sampled now) hprog htransfer hsegment hpending]
  rfl

/-! ### The gate -/

/-- Settles O40: the tick comes to the gate, whose two ends are told apart by the CRC test. -/
theorem fileCrcGateDecides : Obligations.FileCrcGateDecides := by
  intro now s hprog htransfer hsegment hpending hready heof
  rw [exec_opTick_sampled, tickSteps_gate (s := s.sampled now) hprog htransfer hsegment hpending hready heof]
  rcases fileCrcGate_cases (s.sampled now) with ⟨hmatch, e⟩ | ⟨hmatch, e⟩ <;> rw [e]
  · exact ⟨fun _ => rfl, fun hne => absurd ((fileCrcMatches_iff s.ctx).mp hmatch) hne⟩
  · refine ⟨fun heq => ?_, fun _ => ⟨_, rfl, rfl, rfl, ⟨rfl, rfl, rfl⟩, fun _ => rfl, rfl, rfl⟩⟩
    have hmatch' : fileCrcMatches s.ctx = false := hmatch
    rw [(fileCrcMatches_iff s.ctx).mpr heq] at hmatch'
    cases hmatch'

/-! ### One response a tick -/

/-- Every end of a tick emits one code, and nothing after it (45_transfer_control R281). -/
theorem tickSteps_emits (s : State) : ∃ (u : State) (c : ResponseCode), tickSteps s = u.emit c ∧ u.cfg = s.cfg := by
  rcases tickSteps_cases s with ⟨-, e⟩ | ⟨-, -, e⟩ | ⟨-, -, -, e⟩ | ⟨-, -, -, -, e⟩ | ⟨-, -, -, -, -, e⟩ |
    ⟨-, -, -, -, -, -, e⟩ | ⟨-, -, -, -, -, -, e⟩ <;> rw [e]
  · unfold idleTick
    split
    · exact ⟨_, _, rfl, rfl⟩
    · exact ⟨_, _, rfl, rfl⟩
  · exact ⟨_, _, rfl, rfl⟩
  · exact ⟨_, _, rfl, rfl⟩
  · exact ⟨_, _, rfl, rfl⟩
  · exact ⟨_, _, rfl, (finaliseLine_env s).1⟩
  · rcases fileCrcGate_cases s with ⟨-, e'⟩ | ⟨-, e'⟩ <;> rw [e']
    · exact ⟨_, _, rfl, rfl⟩
    · exact ⟨_, _, rfl, rfl⟩
  · exact ⟨_, _, rfl, rfl⟩

/-- A frame returns nothing and sends nothing: it can only raise an error kind (45_transfer_control R262). -/
theorem processInit_answer (m : InitFields) (s : State) :
    (processInit m s).out.ret = s.out.ret ∧ (processInit m s).out.sent = s.out.sent := by
  rcases processInit_cases m s with ⟨-, e⟩ | ⟨-, e⟩ <;> rw [e]
  · exact ⟨rfl, rfl⟩
  · exact ⟨rfl, rfl⟩

theorem adoptTotal_out {m : SegFields} {s u : State} (h : adoptTotal m s = some u) : u.out = s.out := by
  rcases adoptTotal_spec h with ⟨-, -, -, rfl⟩ | ⟨-, -, rfl⟩
  · rfl
  · rfl

theorem processSegment_answer {m : SegFields} {s t : State} (h : processSegment m s = .next t) :
    t.out.ret = s.out.ret ∧ t.out.sent = s.out.sent := by
  rcases processSegment_next h with ⟨-, rfl⟩ | ⟨-, rfl⟩ | ⟨-, -, u, hu, -, rfl⟩ | ⟨-, -, u, hu, -, -, rfl⟩
  · exact ⟨rfl, rfl⟩
  · exact ⟨rfl, rfl⟩
  · rw [← adoptTotal_out hu]
    exact ⟨rfl, rfl⟩
  · rw [← adoptTotal_out hu]
    exact ⟨rfl, rfl⟩

theorem exec_opFrame_answer {buf : Frame} {now : Word} {s t : State} (h : exec (.opFrame buf now) s = .next t) :
    t.out.ret = .none ∧ t.out.sent = none := by
  rcases exec_opFrame buf now s with ⟨-, e⟩ | ⟨-, e⟩ <;> rw [e] at h
  · cases h
    exact processInit_answer (unpackInitFrame buf) (s.sampled now)
  · exact processSegment_answer (s := s.sampled now) h

/-- The operations of the host but the tick send nothing, and return nothing or a query's answer. -/
theorem exec_port_answer {op : PortOp} {s t : State} (hop : ∀ now, op ≠ .tick now) (h : exec op.instr s = .next t) :
    t.out.sent = none ∧ (t.out.ret = .none ∨ ∃ b, t.out.ret = .bool b) := by
  cases op with
  | tick now => exact absurd rfl (hop now)
  | frame buf now =>
    obtain ⟨hret, hsent⟩ := exec_opFrame_answer h
    exact ⟨hsent, .inl hret⟩
  | reset | abort =>
    cases h
    exact ⟨rfl, .inl rfl⟩
  | qInProgress | qComplete =>
    cases h
    exact ⟨rfl, .inr ⟨_, rfl⟩⟩

/-- Settles O41: every end of a tick emits once, and the other operations hand out no response. -/
theorem oneResponseATickAndNoOther : Obligations.OneResponseATickAndNoOther := by
  refine ⟨fun now s => ?tick, fun op s t hop h => ?other,
    fun now s hprog htransfer hsegment hpending hready heof => ?quiet⟩
  case tick =>
    obtain ⟨u, c, e, hcfg⟩ := tickSteps_emits (s.sampled now)
    have hcfg' : u.cfg = s.cfg := hcfg
    refine ⟨u.emit c, c, by rw [exec_opTick_sampled, e], rfl, ?_⟩
    rw [← hcfg']
    rfl
  case other =>
    obtain ⟨hsent, hret⟩ := exec_port_answer hop h
    refine ⟨hsent, fun c n hresponse => ?_⟩
    rw [hresponse] at hret
    rcases hret with hret | ⟨b, hret⟩
    · cases hret
    · cases hret
  case quiet =>
    rw [exec_opTick_sampled, tickSteps_quiet (s := s.sampled now) hprog htransfer hsegment hpending hready heof]
    rfl

/-! ### Line finalisation -/

/-- A finalising tick is line finalisation at the sampled clock, and `SEND_LINE`. -/
theorem exec_opTick_finalises {now : Word} {s : State} (h : FinalisesAt now s) :
    exec (.opTick now) s = .next ((finaliseLine (s.sampled now)).emit .sendLine) := by
  rw [exec_opTick_sampled, tickSteps_finalises (s := s.sampled now) h]

theorem finaliseLine_invalid {s : State} (h : (parseLineBuf s.cfg.hexAcceptLower s.ctx.lineBuf).valid = false) :
    finaliseLine s = (s.raise .lineParseError).lineReset := by
  simp only [finaliseLine, h, Bool.false_eq_true, if_false]

/-- Settles O39: the rejecting end of line finalisation that runs no handler. -/
theorem invalidLineIsAskedForAgain : Obligations.InvalidLineIsAskedForAgain := by
  intro now s hfinal hinvalid
  rw [exec_opTick_finalises hfinal, finaliseLine_invalid (s := s.sampled now) hinvalid]
  rfl

theorem finaliseLine_rejected {pl : ParsedLine} {s t : State}
    (hparse : parseLineBuf s.cfg.hexAcceptLower s.ctx.lineBuf = pl) (hvalid : pl.valid = true)
    (hdispatch : dispatchRecord pl s = (t, false)) : finaliseLine s = (t.raise .lineProcessingError).lineReset := by
  simp [finaliseLine, hparse, hvalid, hdispatch]

/-- The operation of a record is the dispatch of its line, with the result handed out (44_record_dispatch R230). -/
theorem exec_recordInstr {v : Bool} {ty : Byte} {r : HexRecord} {i : Instr} (s : State)
    (h : recordInstr ty r = some i) :
    exec i s = handlerOutcome (dispatchRecord ⟨v, ty, r⟩ s.clearOutputs) := by
  unfold recordInstr at h
  unfold dispatchRecord
  split at h <;> cases h <;> simp only [*] <;> rfl

/-- No handler writes the line buffer. -/
theorem HandlerEffect.lineBuf {r : HexRecord} {s t : State} (e : HandlerEffect r s t) :
    t.ctx.lineBuf = s.ctx.lineBuf := by
  rcases e.ctx with ⟨_, _, hctx⟩ | hctx | hctx | hctx <;> rw [hctx]

/-- Settles O11: the tick and the operation carry out the same handler, and each adds its own outputs. -/
theorem tickRunsTheRecordOfTheLine : Obligations.TickRunsTheRecordOfTheLine := by
  intro now s ty r i hfinal hparse hi
  have heffect := dispatchRecord_effect ⟨true, ty, r⟩ (s.sampled now)
  have hexec : exec i { s with now := now } = handlerOutcome (dispatchRecord ⟨true, ty, r⟩ (s.sampled now)) :=
    exec_recordInstr _ hi
  rw [exec_opTick_finalises hfinal, hexec]
  obtain ⟨⟨h, b⟩, hd⟩ : ∃ p, p = dispatchRecord ⟨true, ty, r⟩ (s.sampled now) := ⟨_, rfl⟩
  rw [← hd] at heffect ⊢
  have hcfg : h.cfg = s.cfg := heffect.cfg
  have hline : h.ctx.lineBuf = s.ctx.lineBuf := heffect.lineBuf
  have henv : EnvUnchanged s h := heffect.envUnchanged
  rw [← hcfg, ← hline]
  cases b with
  | true =>
    rw [finaliseLine_accepted (s := s.sampled now) hparse rfl hd.symm]
    exact ⟨h.setRet (.bool true), _, true, rfl, rfl, rfl, rfl, rfl, rfl, (List.append_nil _).symm, rfl, henv,
      fun _ => rfl, rfl, heffect.now⟩
  | false =>
    rw [finaliseLine_rejected (s := s.sampled now) hparse rfl hd.symm]
    exact ⟨h.setRet (.bool false), _, false, rfl, rfl, rfl, rfl, rfl, rfl, rfl, rfl, henv, fun _ => rfl, rfl,
      heffect.now⟩

/-- The raw register of a running CRC is the feed of the text it covers (10_state R27). -/
theorem fileCrcReg_of_computed {c : Context} {text : List Byte} (h : computedFileCrc32 c = crc32Of text) :
    c.fileCrcReg = crcFeed crcOnes text := by
  rw [computedFileCrc32, crc32Of] at h
  exact BitVec.xor_left_inj crcOnes |>.mp h

/-- Settles O46: an accepted line feeds its text, a rejected one nothing. -/
theorem fileCrcCoversTheAcceptedText : Obligations.FileCrcCoversTheAcceptedText := by
  intro now s text hfinal hcrc
  have hreg := fileCrcReg_of_computed hcrc
  obtain ⟨d, hd, hctx⟩ := finaliseLine_ctx (s.sampled now)
  have hkept : d.fileCrcReg = s.ctx.fileCrcReg ∧ d.currentLineIndex = s.ctx.currentLineIndex := by
    rcases hd with ⟨_, _, rfl⟩ | rfl | ⟨r, rfl | rfl⟩ <;> exact ⟨rfl, rfl⟩
  obtain ⟨hdreg, hdindex⟩ := hkept
  refine ⟨_, exec_opTick_finalises hfinal, ?_⟩
  rw [State.emit_ctx]
  rcases hctx with hctx | hctx <;> rw [hctx]
  · refine .inr ⟨hdindex, ?_⟩
    rw [← hcrc, computedFileCrc32, computedFileCrc32, freshLine, hdreg]
  · refine .inl ⟨rfl, ?_⟩
    rw [crc32Of, crcFeed_append, ← hreg]
    rfl

/-! ### The line past its text -/

theorem flashWriteBlock_lineBuf (w : Word) (bs : List Byte) (s : State) (l : Line) :
    State.flashWriteBlock w bs { s with ctx.lineBuf := l } = { s.flashWriteBlock w bs with ctx.lineBuf := l } := by
  by_cases h : s.flashReply = 0 <;> simp [State.flashWriteBlock, h]

/-- A record write does not touch the line buffer, and does not look at it. -/
theorem recordWrite_lineBuf (w : Word) (bs : List Byte) (s : State) (l : Line) :
    recordWrite w bs { s with ctx.lineBuf := l } =
      ({ (recordWrite w bs s).1 with ctx.lineBuf := l }, (recordWrite w bs s).2) := by
  cases hdry : s.cfg.dryRun with
  | true => rw [recordWrite_dry (s := s) hdry, recordWrite_dry (s := { s with ctx.lineBuf := l }) hdry]
  | false =>
    by_cases hflash : inFlash s.cfg s.cfg.flashBufferBase = true
    · by_cases hreply : s.flashReply = 0
      · rw [recordWrite_flash (s := s) hdry hflash hreply,
          recordWrite_flash (s := { s with ctx.lineBuf := l }) hdry hflash hreply, flashWriteBlock_lineBuf]
      · rw [recordWrite_flashFailed (s := s) hdry hflash hreply,
          recordWrite_flashFailed (s := { s with ctx.lineBuf := l }) hdry hflash hreply, flashWriteBlock_lineBuf]
        rfl
    · rw [recordWrite_ram (s := s) hdry hflash, recordWrite_ram (s := { s with ctx.lineBuf := l }) hdry hflash]
      rfl

theorem recordData_lineBuf (r : HexRecord) (s : State) (l : Line) :
    recordData r { s with ctx.lineBuf := l } =
      ({ (recordData r s).1 with ctx.lineBuf := l }, (recordData r s).2) := by
  rcases Nat.lt_or_ge (windowEnd s.cfg) (endAddress s.ctx r) with hw | hw
  · rw [recordData_out (s := s) hw, recordData_out (s := { s with ctx.lineBuf := l }) hw]
    rfl
  · rw [recordData_in (s := s) hw, recordData_in (s := { s with ctx.lineBuf := l }) hw, ← recordWrite_lineBuf]
    rfl

theorem recordEof_last {s : State} (h : atLastLine s.ctx = true) :
    recordEof s = ({ s with ctx.eofReceived := true }, true) := if_pos h

theorem recordEof_notLast {s : State} (h : ¬ atLastLine s.ctx = true) : recordEof s = (s, false) := if_neg h

theorem recordEof_lineBuf (s : State) (l : Line) :
    recordEof { s with ctx.lineBuf := l } = ({ (recordEof s).1 with ctx.lineBuf := l }, (recordEof s).2) := by
  by_cases h : atLastLine s.ctx = true
  · rw [recordEof_last (s := s) h, recordEof_last (s := { s with ctx.lineBuf := l }) h]
  · rw [recordEof_notLast (s := s) h, recordEof_notLast (s := { s with ctx.lineBuf := l }) h]

/-- No handler looks at the line buffer. -/
theorem dispatchRecord_lineBuf (pl : ParsedLine) (s : State) (l : Line) :
    dispatchRecord pl { s with ctx.lineBuf := l } =
      ({ (dispatchRecord pl s).1 with ctx.lineBuf := l }, (dispatchRecord pl s).2) := by
  unfold dispatchRecord
  split
  · exact recordData_lineBuf _ s l
  · exact recordEof_lineBuf s l
  all_goals rfl

/-- Acceptance and the line reset see of the buffer its text alone. -/
theorem lineReset_acceptLine_lineBuf (s : State) {l : Line} (h : lineText l = lineText s.ctx.lineBuf) :
    (acceptLine { s with ctx.lineBuf := l }).lineReset = (acceptLine s).lineReset := by
  rw [lineReset_acceptLine, lineReset_acceptLine, h]
  rfl

/-- Settles O8: the parse and the file CRC read the text, the handlers nothing of the buffer, and the line reset
overwrites the rest. -/
theorem bytesAfterThePadAreIgnored : Obligations.BytesAfterThePadAreIgnored := by
  intro s l htext
  have hparse := parseLineBuf_congr s.cfg.hexAcceptLower htext
  have hdispatch := dispatchRecord_lineBuf (parseLineBuf s.cfg.hexAcceptLower s.ctx.lineBuf) s l
  rcases finaliseLine_cases s with ⟨hinvalid, e⟩ | ⟨hvalid, hresult, e⟩ | ⟨hvalid, hresult, e⟩ <;> rw [e]
  · rw [finaliseLine_invalid (s := { s with ctx.lineBuf := l }) (by rw [hparse]; exact hinvalid)]
    rfl
  · have hline := (dispatchRecord_effect (parseLineBuf s.cfg.hexAcceptLower s.ctx.lineBuf) s).lineBuf
    rw [hresult] at hdispatch
    rw [finaliseLine_accepted (s := { s with ctx.lineBuf := l }) hparse hvalid hdispatch]
    exact lineReset_acceptLine_lineBuf _ (by rw [hline, htext])
  · rw [hresult] at hdispatch
    rw [finaliseLine_rejected (s := { s with ctx.lineBuf := l }) hparse hvalid hdispatch]
    rfl

end Sys2Proof.Machine
end

section
/-! The whole machine: STAGE is never read and only line finalisation writes it, how the awaited line's index moves,
what completes a transfer, and which errors end one. -/

namespace Sys2Proof.Machine

/-! ### STAGE is never read -/

/-- With any other content of STAGE the operation leaves a state that differs there alone. -/
def StageBlind (f : State → State) : Prop := ∀ s m, ∃ n, f { s with stage := m } = { f s with stage := n }

/-- The same for a handler, whose result is the same too. -/
def StageBlindHandler (f : State → State × Bool) : Prop :=
  ∀ s m, ∃ n, f { s with stage := m } = ({ (f s).1 with stage := n }, (f s).2)

theorem StageBlind.comp {f g : State → State} (hf : StageBlind f) (hg : StageBlind g) :
    StageBlind fun s => f (g s) := by
  intro s m
  obtain ⟨n, hn⟩ := hg s m
  obtain ⟨k, hk⟩ := hf (g s) n
  exact ⟨k, (congrArg f hn).trans hk⟩

theorem stageBlind_emit (c : ResponseCode) : StageBlind (State.emit c) := fun _ m => ⟨m, rfl⟩

theorem stageBlind_sampled (now : Word) : StageBlind (State.sampled now) := fun _ m => ⟨m, rfl⟩

theorem stageBlind_processInit (m : InitFields) : StageBlind (processInit m) := by
  intro s n
  cases h : initValid m <;> exact ⟨n, by simp only [processInit, h]; rfl⟩

theorem stageBlind_flashWriteBlock (w : Word) (bs : List Byte) : StageBlind (State.flashWriteBlock w bs) := by
  intro s m
  by_cases h : s.flashReply = 0
  · exact ⟨Memory.writeBytes m w bs, by simp [State.flashWriteBlock, h]⟩
  · exact ⟨Memory.writeBytes m w (failedFlashBytes s.freeCount bs.length), by simp [State.flashWriteBlock, h]⟩

theorem stageBlind_recordWrite (w : Word) (bs : List Byte) : StageBlindHandler (recordWrite w bs) := by
  intro s m
  obtain ⟨n, hn⟩ := stageBlind_flashWriteBlock w bs s m
  cases hdry : s.cfg.dryRun with
  | true => exact ⟨m, by rw [recordWrite_dry (s := s) hdry, recordWrite_dry (s := { s with stage := m }) hdry]⟩
  | false =>
    by_cases hflash : inFlash s.cfg s.cfg.flashBufferBase = true
    · by_cases hreply : s.flashReply = 0
      · exact ⟨n, by rw [recordWrite_flash (s := s) hdry hflash hreply,
          recordWrite_flash (s := { s with stage := m }) hdry hflash hreply, hn]⟩
      · refine ⟨n, ?_⟩
        rw [recordWrite_flashFailed (s := s) hdry hflash hreply,
          recordWrite_flashFailed (s := { s with stage := m }) hdry hflash hreply, hn]
        rfl
    · refine ⟨Memory.writeBytes m w bs, ?_⟩
      rw [recordWrite_ram (s := s) hdry hflash, recordWrite_ram (s := { s with stage := m }) hdry hflash]
      rfl

theorem stageBlind_recordData (r : HexRecord) : StageBlindHandler (recordData r) := by
  intro s m
  rcases Nat.lt_or_ge (windowEnd s.cfg) (endAddress s.ctx r) with hw | hw
  · refine ⟨m, ?_⟩
    rw [recordData_out (s := s) hw, recordData_out (s := { s with stage := m }) hw]
    rfl
  · rw [recordData_in (s := s) hw, recordData_in (s := { s with stage := m }) hw]
    exact stageBlind_recordWrite _ _ (s.updateBounds (imageAddress s.ctx r) (endAddress s.ctx r)) m

theorem stageBlind_recordEof : StageBlindHandler recordEof := by
  intro s m
  by_cases h : atLastLine s.ctx = true
  · exact ⟨m, by rw [recordEof_last (s := s) h, recordEof_last (s := { s with stage := m }) h]⟩
  · exact ⟨m, by rw [recordEof_notLast (s := s) h, recordEof_notLast (s := { s with stage := m }) h]⟩

/-- No handler reads STAGE (44_record_dispatch R251). -/
theorem stageBlind_dispatchRecord (pl : ParsedLine) : StageBlindHandler (dispatchRecord pl) := by
  intro s m
  unfold dispatchRecord
  split
  · exact stageBlind_recordData _ s m
  · exact stageBlind_recordEof s m
  all_goals exact ⟨m, rfl⟩

theorem stageBlind_finaliseLine : StageBlind finaliseLine := by
  intro s m
  obtain ⟨n, hn⟩ := stageBlind_dispatchRecord (parseLineBuf s.cfg.hexAcceptLower s.ctx.lineBuf) s m
  rcases finaliseLine_cases s with ⟨hinvalid, e⟩ | ⟨hvalid, hresult, e⟩ | ⟨hvalid, hresult, e⟩ <;> rw [e]
  · exact ⟨m, finaliseLine_invalid (s := { s with stage := m }) hinvalid⟩
  · rw [hresult] at hn
    exact ⟨n, finaliseLine_accepted (s := { s with stage := m }) rfl hvalid hn⟩
  · rw [hresult] at hn
    exact ⟨n, finaliseLine_rejected (s := { s with stage := m }) rfl hvalid hn⟩

theorem stageBlind_idleTick : StageBlind idleTick := by
  intro s m
  cases h : s.cfg.idleBadInitReport && s.ctx.newInitPending && s.ctx.initError <;>
    exact ⟨m, by simp only [idleTick, h]; rfl⟩

theorem stageBlind_fileCrcGate : StageBlind fileCrcGate := by
  intro s m
  cases h : fileCrcMatches s.ctx <;> exact ⟨m, by simp only [fileCrcGate, h]; rfl⟩

/-- The conditions of the tick's priority list are read from the registers, the parameters and the clock. -/
theorem stageBlind_tickSteps : StageBlind tickSteps := by
  intro s m
  rcases tickSteps_cases s with ⟨hidle, e⟩ | ⟨hprog, ht, e⟩ | ⟨hprog, ht, hs, e⟩ | ⟨hprog, ht, hs, hp, e⟩ |
    ⟨hprog, ht, -, hp, hr, e⟩ | ⟨hprog, ht, hs, hp, hr, he, e⟩ | ⟨hprog, ht, hs, hp, hr, he, e⟩ <;> rw [e]
  · rw [tickSteps_idle (s := { s with stage := m }) hidle]
    exact stageBlind_idleTick s m
  · exact ⟨m, tickSteps_transferTimeout (s := { s with stage := m }) hprog ht⟩
  · exact ⟨m, tickSteps_segmentTimeout (s := { s with stage := m }) hprog ht hs⟩
  · exact ⟨m, tickSteps_pendingInit (s := { s with stage := m }) hprog ht hs hp⟩
  · rw [tickSteps_finalises (s := { s with stage := m }) ⟨hprog, ht, hr, hp⟩]
    exact (stageBlind_emit .sendLine).comp stageBlind_finaliseLine s m
  · rw [tickSteps_gate (s := { s with stage := m }) hprog ht hs hp hr he]
    exact stageBlind_fileCrcGate s m
  · exact ⟨m, tickSteps_quiet (s := { s with stage := m }) hprog ht hs hp hr he⟩

theorem adoptTotal_stage (m : SegFields) (s : State) (n : Memory) :
    adoptTotal m { s with stage := n } = (adoptTotal m s).map fun u => { u with stage := n } := by
  by_cases hno : s.ctx.segmentTotal = noTotal
  · by_cases hrange : m.segmentTotal < 1#8 ∨ 9#8 < m.segmentTotal
    · rw [adoptTotal_badRange (s := s) hno hrange, adoptTotal_badRange (s := { s with stage := n }) hno hrange]
      rfl
    · rw [adoptTotal_adopts (s := s) hno hrange, adoptTotal_adopts (s := { s with stage := n }) hno hrange]
      rfl
  · by_cases hsame : m.segmentTotal = s.ctx.segmentTotal
    · rw [adoptTotal_agrees (s := s) hno hsame, adoptTotal_agrees (s := { s with stage := n }) hno hsame]
      rfl
    · rw [adoptTotal_differs (s := s) hno hsame, adoptTotal_differs (s := { s with stage := n }) hno hsame]
      rfl

/-- A frame of the awaited line that passes the acceptance rules is stored, if its slot exists (R185). -/
theorem processSegment_stored {m : SegFields} {s u : State} (hprog : s.ctx.inProgress = true)
    (hline : m.lineNum = s.ctx.currentLineIndex) (hu : adoptTotal m s = some u)
    (hidx : ¬ u.ctx.segmentTotal ≤ m.segmentIndex) : processSegment m s = storeSegment m u := by
  rw [processSegment, if_neg (by simp [hprog]), if_neg (not_not_intro hline), hu]
  exact if_neg hidx

theorem storeSegment_stage {m : SegFields} {s t : State} (n : Memory) (h : storeSegment m s = .next t) :
    storeSegment m { s with stage := n } = .next { t with stage := n } := by
  obtain ⟨hslot, rfl⟩ := storeSegment_next h
  exact storeSegment_of_slot hslot

/-- A Segment frame neither reads STAGE nor writes it (42_segment_reassembly R192). -/
theorem processSegment_stage {m : SegFields} {s t : State} (n : Memory) (h : processSegment m s = .next t) :
    processSegment m { s with stage := n } = .next { t with stage := n } := by
  cases hprog : s.ctx.inProgress with
  | false =>
    rw [processSegment_idle m hprog] at h
    cases h
    exact processSegment_idle m hprog
  | true =>
    by_cases hline : m.lineNum = s.ctx.currentLineIndex
    · have hadopt := adoptTotal_stage m s n
      cases hu : adoptTotal m s with
      | none =>
        rw [hu] at hadopt
        rw [processSegment_notAdopted hprog hline hu] at h
        cases h
        exact processSegment_notAdopted (s := { s with stage := n }) hprog hline hadopt
      | some u =>
        rw [hu] at hadopt
        by_cases hidx : u.ctx.segmentTotal ≤ m.segmentIndex
        · rw [processSegment_pastTotal hprog hline hu hidx] at h
          cases h
          exact processSegment_pastTotal (s := { s with stage := n }) hprog hline hadopt hidx
        · rw [processSegment_stored hprog hline hu hidx] at h
          rw [processSegment_stored (s := { s with stage := n }) hprog hline hadopt hidx]
          exact storeSegment_stage n h
    · rw [processSegment_otherLine hprog hline] at h
      cases h
      exact processSegment_otherLine (s := { s with stage := n }) hprog hline

/-- An operation made of a function that does not read STAGE. -/
theorem StageBlind.next {f : State → State} (hf : StageBlind f) {s t : State} (m : Memory)
    (h : (.next (f s) : Host.Outcome State Fault Refusal) = .next t) :
    ∃ n, (.next (f { s with stage := m }) : Host.Outcome State Fault Refusal) = .next { t with stage := n } := by
  cases h
  obtain ⟨n, hn⟩ := hf s m
  exact ⟨n, congrArg _ hn⟩

/-- A record operation made of a handler that does not read STAGE. -/
theorem StageBlindHandler.outcome {f : State → State × Bool} (hf : StageBlindHandler f) {s t : State} (m : Memory)
    (h : handlerOutcome (f s.clearOutputs) = .next t) :
    ∃ n, handlerOutcome (f ({ s with stage := m } : State).clearOutputs) = .next { t with stage := n } := by
  cases h
  obtain ⟨n, hn⟩ := hf s.clearOutputs m
  exact ⟨n, congrArg handlerOutcome hn⟩

theorem exec_opFrame_stage {buf : Frame} {now : Word} {s t : State} (m : Memory)
    (h : exec (.opFrame buf now) s = .next t) :
    ∃ n, exec (.opFrame buf now) { s with stage := m } = .next { t with stage := n } := by
  simp only [exec, execOpFrame] at h ⊢
  cases hkind : classify buf <;> rw [hkind] at h
  · exact ((stageBlind_processInit _).comp (stageBlind_sampled now)).next m h
  · exact ⟨m, processSegment_stage (s := s.sampled now) m h⟩

theorem exec_parseLine_stage {s t : State} (m : Memory) (h : exec .parseLine s = .next t) :
    exec .parseLine { s with stage := m } = .next { t with stage := m } := by
  cases hvalid : (parseLineBuf s.cfg.hexAcceptLower s.ctx.lineBuf).valid with
  | true =>
    rw [exec_parseLine_valid rfl hvalid] at h
    cases h
    exact exec_parseLine_valid (s := { s with stage := m }) rfl hvalid
  | false =>
    rw [exec_parseLine_invalid rfl hvalid] at h
    cases h
    exact exec_parseLine_invalid (s := { s with stage := m }) rfl hvalid

/-- Settles O51, operation by operation. -/
theorem stageContentIsNeverRead : Obligations.StageContentIsNeverRead := by
  intro i s t m h
  cases i with
  | init lc fc ic => exact ((stageBlind_processInit _).comp fun _ n => ⟨n, rfl⟩).next m h
  | seg ln si st p => exact ⟨m, processSegment_stage (s := s.clearOutputs) m h⟩
  | recData r => exact (stageBlind_recordData r).outcome m h
  | recEof r => exact stageBlind_recordEof.outcome m h
  | opFrame buf now => exact exec_opFrame_stage m h
  | opTick now => exact (stageBlind_tickSteps.comp (stageBlind_sampled now)).next m h
  | parseLine => exact ⟨m, exec_parseLine_stage m h⟩
  | recEsa | recSsa | recEla | recSla | rspNone | rspSendLine | rspTransferComplete | rspError =>
    cases h
    exact ⟨m, rfl⟩
  | opReset | opAbort | qInProgress | qComplete | crc32 | crc32Upd | unpackInit | packInit | unpackSeg | packSeg =>
    cases h
    exact ⟨m, rfl⟩

/-! ### Who writes STAGE -/

theorem processInit_stage (m : InitFields) (s : State) : (processInit m s).stage = s.stage := by
  rcases processInit_cases m s with ⟨-, e⟩ | ⟨-, e⟩ <;> rw [e]
  · rfl
  · rfl

/-- Adopting a total writes the line's two count registers only. -/
theorem adoptTotal_frame {m : SegFields} {s u : State} (h : adoptTotal m s = some u) :
    ∃ n b, u = { s with ctx.segmentTotal := n, ctx.segmentsReceived := b } := by
  rcases adoptTotal_spec h with ⟨-, -, -, rfl⟩ | ⟨-, -, rfl⟩
  · exact ⟨_, _, rfl⟩
  · exact ⟨_, _, rfl⟩

/-- A Segment frame writes the line's registers, the time stamp and the error list only. -/
theorem processSegment_frame {m : SegFields} {s t : State} (h : processSegment m s = .next t) :
    ∃ n b l f k, (k = [] ∨ k = [.segmentMismatch]) ∧ t = { s with
      ctx.segmentTotal := n
      ctx.segmentsReceived := b
      ctx.lineBuf := l
      ctx.lastFrameMs := f
      out.raised := s.out.raised ++ k } := by
  rcases processSegment_next h with ⟨-, rfl⟩ | ⟨-, rfl⟩ | ⟨-, -, u, hu, -, rfl⟩ | ⟨-, -, u, hu, -, -, rfl⟩
  · exact ⟨_, _, _, _, [], .inl rfl, by rw [List.append_nil]⟩
  · exact ⟨_, _, _, _, _, .inr rfl, rfl⟩
  · obtain ⟨n, b, rfl⟩ := adoptTotal_frame hu
    exact ⟨_, _, _, _, _, .inr rfl, rfl⟩
  · obtain ⟨n, b, rfl⟩ := adoptTotal_frame hu
    exact ⟨_, _, _, _, [], .inl rfl, by rw [List.append_nil]; rfl⟩

theorem idleTick_stage (s : State) : (idleTick s).stage = s.stage := by
  unfold idleTick
  split
  · rfl
  · rfl

theorem fileCrcGate_stage (s : State) : (fileCrcGate s).stage = s.stage := by
  rcases fileCrcGate_cases s with ⟨-, e⟩ | ⟨-, e⟩ <;> rw [e]
  · rfl
  · rfl

/-- A tick that does not finalise a line leaves STAGE (20_memory R84). -/
theorem tickSteps_stage (s : State) : (tickSteps s).stage = s.stage ∨ FinalisesAt s.now s := by
  rcases tickSteps_cases s with ⟨-, e⟩ | ⟨-, -, e⟩ | ⟨-, -, -, e⟩ | ⟨-, -, -, -, e⟩ | ⟨hprog, ht, -, hp, hr, -⟩ |
    ⟨-, -, -, -, -, -, e⟩ | ⟨-, -, -, -, -, -, e⟩
  · exact .inl (by rw [e, idleTick_stage])
  · exact .inl (by rw [e]; rfl)
  · exact .inl (by rw [e]; rfl)
  · exact .inl (by rw [e]; rfl)
  · exact .inr ⟨hprog, ht, hr, hp⟩
  · exact .inl (by rw [e, fileCrcGate_stage])
  · exact .inl (by rw [e]; rfl)

theorem exec_port_stage {op : PortOp} {s t : State} (h : exec op.instr s = .next t) :
    t.stage = s.stage ∨ ∃ now, op = .tick now ∧ FinalisesAt now s := by
  cases op with
  | frame buf now =>
    left
    rcases exec_opFrame buf now s with ⟨-, e⟩ | ⟨-, e⟩ <;> rw [PortOp.instr, e] at h
    · cases h
      exact processInit_stage _ _
    · obtain ⟨_, _, _, _, _, -, rfl⟩ := processSegment_frame h
      rfl
  | tick now =>
    cases h
    exact (tickSteps_stage (s.sampled now)).imp_right fun hfinal => ⟨now, rfl, hfinal⟩
  | reset | abort | qInProgress | qComplete =>
    cases h
    exact .inl rfl

/-- Settles O52: of the port operations, only a tick that finalises a line writes STAGE. -/
theorem onlyLineFinalisationWritesStage : Obligations.OnlyLineFinalisationWritesStage := by
  intro s t a h hread
  cases hport : s.port with
  | nil =>
    rw [step_idle hport] at h
    cases h
    exact absurd rfl hread
  | cons r rest =>
    rw [step_request hport] at h
    rcases exec_port_stage h with hsame | ⟨now, hop, hfinal⟩
    · exact absurd (congrArg (Memory.read · a) hsame) hread
    · exact ⟨now, r.flashReply, rest, by rw [← hop], hfinal⟩

/-! ### The awaited line -/

theorem finaliseLine_index (s : State) : (finaliseLine s).ctx.currentLineIndex = s.ctx.currentLineIndex ∨
    (finaliseLine s).ctx.currentLineIndex = s.ctx.currentLineIndex + 1#16 := by
  obtain ⟨d, hd, hctx⟩ := finaliseLine_ctx s
  have hindex : d.currentLineIndex = s.ctx.currentLineIndex := by
    rcases hd with ⟨_, _, rfl⟩ | rfl | ⟨r, rfl | rfl⟩ <;> rfl
  rcases hctx with hctx | hctx <;> rw [hctx]
  · exact .inl hindex
  · exact .inr rfl

theorem tickSteps_index (s : State) : (tickSteps s).ctx.currentLineIndex = s.ctx.currentLineIndex ∨
    ((tickSteps s).ctx.currentLineIndex = s.ctx.currentLineIndex + 1#16 ∧ FinalisesAt s.now s) ∨
    (tickSteps s).ctx = Context.reset := by
  rcases tickSteps_ctx s with ⟨_, _, e⟩ | ⟨-, e⟩ | ⟨hfinal, e⟩ | ⟨-, -, -, e⟩
  · exact .inl (by rw [e])
  · exact .inr (.inr e)
  · rw [e, State.emit_ctx]
    exact (finaliseLine_index s).imp_right fun hnext => .inl ⟨hnext, hfinal⟩
  · exact .inl (by rw [e])

/-- How each operation of the host moves the index (10_state R28, R56). -/
theorem exec_port_index {op : PortOp} {s t : State} (h : exec op.instr s = .next t) :
    t.ctx.currentLineIndex = s.ctx.currentLineIndex ∨
    (t.ctx.currentLineIndex = s.ctx.currentLineIndex + 1#16 ∧ ∃ now, op = .tick now ∧ FinalisesAt now s) ∨
    t.ctx = Context.reset ∨
    (∃ buf now, op = .frame buf now ∧ classify buf = .init ∧ initValid (unpackInitFrame buf) = true ∧
      t.ctx = (initAccept (unpackInitFrame buf) (s.sampled now)).ctx) := by
  cases op with
  | frame buf now =>
    rcases exec_opFrame buf now s with ⟨hkind, e⟩ | ⟨-, e⟩ <;> rw [PortOp.instr, e] at h
    · cases h
      rcases processInit_cases (unpackInitFrame buf) { s.clearOutputs with now := now } with ⟨hvalid, e'⟩ | ⟨-, e'⟩ <;>
        rw [e']
      · exact .inr (.inr (.inr ⟨buf, now, rfl, hkind, hvalid, rfl⟩))
      · exact .inl rfl
    · obtain ⟨_, _, _, _, _, -, rfl⟩ := processSegment_frame h
      exact .inl rfl
  | tick now =>
    cases h
    rcases tickSteps_index (s.sampled now) with hsame | ⟨hnext, hfinal⟩ | hreset
    · exact .inl hsame
    · exact .inr (.inl ⟨hnext, now, rfl, hfinal⟩)
    · exact .inr (.inr (.inl hreset))
  | reset | abort =>
    cases h
    exact .inr (.inr (.inl rfl))
  | qInProgress | qComplete =>
    cases h
    exact .inl rfl

/-- Settles O53: the port operations move the index in these four ways alone. -/
theorem lineIndexAdvancesByOneOrRestarts : Obligations.LineIndexAdvancesByOneOrRestarts := by
  intro s t h
  cases hport : s.port with
  | nil =>
    rw [step_idle hport] at h
    cases h
    exact .inl rfl
  | cons r rest =>
    rw [step_request hport] at h
    rcases exec_port_index h with hsame | ⟨hnext, now, hop, hfinal⟩ | hreset | ⟨buf, now, hop, hkind, hvalid, hctx⟩
    · exact .inl hsame
    · exact .inr (.inl ⟨hnext, now, r.flashReply, rest, by rw [← hop], hfinal⟩)
    · exact .inr (.inr (.inl hreset))
    · exact .inr (.inr (.inr ⟨buf, now, r.flashReply, rest, by rw [← hop], hkind, hvalid, hctx⟩))

/-! ### Completion -/

theorem finaliseLine_complete (s : State) : (finaliseLine s).ctx.complete = s.ctx.complete := by
  obtain ⟨d, hd, hctx⟩ := finaliseLine_ctx s
  have hcomplete : d.complete = s.ctx.complete := by
    rcases hd with ⟨_, _, rfl⟩ | rfl | ⟨r, rfl | rfl⟩ <;> rfl
  rcases hctx with hctx | hctx <;> rw [hctx] <;> exact hcomplete

/-- Only the gate makes a tick complete a transfer (45_transfer_control R280). -/
theorem tickSteps_complete {s : State} (hbefore : s.ctx.complete = false) (hafter : (tickSteps s).ctx.complete = true) :
    s.ctx.inProgress = true ∧ s.ctx.eofReceived = true ∧ fileCrcMatches s.ctx = true ∧
      tickSteps s = ({ s with ctx.complete := true, ctx.inProgress := false }).emit .transferComplete := by
  rcases tickSteps_cases s with ⟨-, e⟩ | ⟨-, -, e⟩ | ⟨-, -, -, e⟩ | ⟨-, -, -, -, e⟩ | ⟨-, -, -, -, -, e⟩ |
    ⟨hprog, -, -, -, -, heof, e⟩ | ⟨-, -, -, -, -, -, e⟩ <;> rw [e] at hafter ⊢
  · rw [idleTick_complete, hbefore] at hafter
    cases hafter
  · cases hafter
  · exact absurd (hbefore.symm.trans hafter) Bool.false_ne_true
  · exact absurd (hbefore.symm.trans hafter) Bool.false_ne_true
  · rw [State.emit_ctx, finaliseLine_complete, hbefore] at hafter
    cases hafter
  · rcases fileCrcGate_cases s with ⟨hmatch, e'⟩ | ⟨-, e'⟩ <;> rw [e'] at hafter ⊢
    · exact ⟨hprog, heof, hmatch, rfl⟩
    · cases hafter
  · exact absurd (hbefore.symm.trans hafter) Bool.false_ne_true

/-- Of the operations of the host, a tick alone can set `complete`. -/
theorem exec_port_completes_transfer {op : PortOp} {s t : State} (h : exec op.instr s = .next t)
    (hbefore : s.ctx.complete = false) (hafter : t.ctx.complete = true) :
    ∃ now, op = .tick now ∧ t = tickSteps (s.sampled now) := by
  cases op with
  | frame buf now =>
    rcases exec_opFrame buf now s with ⟨-, e⟩ | ⟨-, e⟩ <;> rw [PortOp.instr, e] at h
    · cases h
      rcases processInit_cases (unpackInitFrame buf) { s.clearOutputs with now := now } with ⟨-, e'⟩ | ⟨-, e'⟩ <;>
        rw [e'] at hafter
      · cases hafter
      · exact absurd (hbefore.symm.trans hafter) Bool.false_ne_true
    · obtain ⟨_, _, _, _, _, -, rfl⟩ := processSegment_frame h
      exact absurd (hbefore.symm.trans hafter) Bool.false_ne_true
  | tick now =>
    cases h
    exact ⟨now, rfl, rfl⟩
  | reset | abort =>
    cases h
    cases hafter
  | qInProgress | qComplete =>
    cases h
    exact absurd (hbefore.symm.trans hafter) Bool.false_ne_true

/-- Settles O54: a tick alone can set `complete`, and of its ends the gate alone. -/
theorem onlyTheGateCompletesATransfer : Obligations.OnlyTheGateCompletesATransfer := by
  intro s t h hbefore hafter
  cases hport : s.port with
  | nil =>
    rw [step_idle hport] at h
    cases h
    exact absurd (hbefore.symm.trans hafter) Bool.false_ne_true
  | cons r rest =>
    rw [step_request hport] at h
    obtain ⟨now, hop, rfl⟩ := exec_port_completes_transfer h hbefore hafter
    obtain ⟨hprog, heof, hmatch, e⟩ := tickSteps_complete
      (s := State.sampled now { s with port := rest, flashReply := r.flashReply }) hbefore hafter
    rw [e]
    exact ⟨⟨now, r.flashReply, rest, by rw [← hop]⟩, hprog, heof, (fileCrcMatches_iff s.ctx).mp hmatch, rfl, rfl⟩

/-! ### Errors -/

/-- The registers that tell whether and where a transfer stands (60_exceptions R313). -/
def TransferKept (c d : Context) : Prop :=
  d.inProgress = c.inProgress ∧ d.complete = c.complete ∧ d.eofReceived = c.eofReceived ∧
    d.currentLineIndex = c.currentLineIndex ∧ d.fileCrcReg = c.fileCrcReg

/-- An error kind that ends a transfer (60_exceptions R313). -/
def Terminal (k : ErrorKind) : Prop := k = .inactivityTimeout ∨ k = .fileChecksumError

/-- The operation raised a terminal kind: every register is reset and `ERROR` is answered. -/
def EndedByError (t : State) : Prop :=
  ∃ k, Terminal k ∧ t.out.raised = [k] ∧ t.ctx = Context.reset ∧ t.out.ret = .response .error 0#16

/-- The operation, if it raised anything, raised no terminal kind and kept the transfer whose registers were `c`. -/
def ErrorsRecoverable (c : Context) (t : State) : Prop :=
  ∀ k ∈ t.out.raised, ¬ Terminal k ∧ TransferKept c t.ctx

theorem errorsRecoverable_of_none {c : Context} {t : State} (h : t.out.raised = []) : ErrorsRecoverable c t := by
  intro k hk
  rw [h] at hk
  cases hk

theorem errorsRecoverable_of_one {c : Context} {t : State} {k : ErrorKind} (h : t.out.raised = [k])
    (hk : ¬ Terminal k) (hkept : TransferKept c t.ctx) : ErrorsRecoverable c t := by
  intro j hj
  rw [h, List.mem_singleton] at hj
  exact ⟨hj ▸ hk, hkept⟩

theorem transferKept_refl (c : Context) : TransferKept c c := ⟨rfl, rfl, rfl, rfl, rfl⟩

/-- A handler that accepts raises nothing; one that rejects writes the bounds at most, and raises no terminal kind
(44_record_dispatch R231, R234, R236, R241). -/
def HandlerErrors (s : State) (p : State × Bool) : Prop :=
  (p.2 = true ∧ p.1.out.raised = s.out.raised) ∨
    (p.2 = false ∧ TransferKept s.ctx p.1.ctx ∧
      ∃ ks, p.1.out.raised = s.out.raised ++ ks ∧ ∀ k ∈ ks, ¬ Terminal k)

theorem recordWrite_errors (w : Word) (bs : List Byte) (s : State) : HandlerErrors s (recordWrite w bs s) := by
  unfold recordWrite
  split
  · exact .inl ⟨rfl, rfl⟩
  · split
    · split
      · exact .inl ⟨rfl, by simp⟩
      · exact .inr ⟨rfl, by simp [TransferKept], [.flashWriteError], by simp, by simp [Terminal]⟩
    · exact .inl ⟨rfl, rfl⟩

theorem recordData_errors (r : HexRecord) (s : State) : HandlerErrors s (recordData r s) := by
  rcases Nat.lt_or_ge (windowEnd s.cfg) (endAddress s.ctx r) with hw | hw
  · rw [recordData_out hw]
    exact .inr ⟨rfl, ⟨rfl, rfl, rfl, rfl, rfl⟩, [.addressOutOfRange], rfl, by simp [Terminal]⟩
  · rw [recordData_in hw]
    exact recordWrite_errors _ _ (s.updateBounds (imageAddress s.ctx r) (endAddress s.ctx r))

theorem recordEof_errors (s : State) : HandlerErrors s (recordEof s) := by
  by_cases h : atLastLine s.ctx = true
  · rw [recordEof_last h]
    exact .inl ⟨rfl, rfl⟩
  · rw [recordEof_notLast h]
    exact .inr ⟨rfl, ⟨rfl, rfl, rfl, rfl, rfl⟩, [], (List.append_nil _).symm, by simp⟩

theorem dispatchRecord_errors (pl : ParsedLine) (s : State) : HandlerErrors s (dispatchRecord pl s) := by
  unfold dispatchRecord
  split
  · exact recordData_errors _ s
  · exact recordEof_errors s
  · exact .inl ⟨rfl, rfl⟩
  · exact .inl ⟨rfl, rfl⟩
  · exact .inl ⟨rfl, rfl⟩
  · exact .inl ⟨rfl, rfl⟩
  · exact .inr ⟨rfl, ⟨rfl, rfl, rfl, rfl, rfl⟩, [], (List.append_nil _).symm, by simp⟩

/-- Line finalisation raises no terminal kind, and an error in it keeps the transfer and its line (45_transfer_control
R277). -/
theorem finaliseLine_errors {s : State} (hnone : s.out.raised = []) : ErrorsRecoverable s.ctx (finaliseLine s) := by
  have hd := dispatchRecord_errors (parseLineBuf s.cfg.hexAcceptLower s.ctx.lineBuf) s
  rcases finaliseLine_cases s with ⟨-, e⟩ | ⟨-, hresult, e⟩ | ⟨-, hresult, e⟩ <;> rw [e]
  · exact errorsRecoverable_of_one (k := .lineParseError) (congrArg (· ++ _) hnone) (by simp [Terminal])
      (transferKept_refl s.ctx)
  · rcases hd with ⟨-, hraised⟩ | ⟨hfalse, -⟩
    · exact errorsRecoverable_of_none (hraised.trans hnone)
    · rw [hresult] at hfalse
      cases hfalse
  · rcases hd with ⟨htrue, -⟩ | ⟨-, hkept, ks, hraised, hks⟩
    · rw [hresult] at htrue
      cases htrue
    · refine fun k hk => ⟨?_, hkept⟩
      simp only [State.lineReset_out, State.raise_out, hraised, hnone, List.nil_append, List.mem_append,
        List.mem_singleton] at hk
      rcases hk with hk | rfl
      · exact hks k hk
      · simp [Terminal]

/-- The two timeouts and the gate aside, a tick raises only what line finalisation raises (60_exceptions R313). -/
theorem tickSteps_errors {s : State} (hnone : s.out.raised = []) :
    EndedByError (tickSteps s) ∨ ErrorsRecoverable s.ctx (tickSteps s) := by
  rcases tickSteps_cases s with ⟨-, e⟩ | ⟨-, -, e⟩ | ⟨-, -, -, e⟩ | ⟨-, -, -, -, e⟩ | ⟨-, -, -, -, -, e⟩ |
    ⟨-, -, -, -, -, -, e⟩ | ⟨-, -, -, -, -, -, e⟩ <;> rw [e]
  · unfold idleTick
    split
    · exact .inr (errorsRecoverable_of_none hnone)
    · exact .inr (errorsRecoverable_of_none hnone)
  · exact .inl ⟨.inactivityTimeout, .inl rfl, congrArg (· ++ _) hnone, rfl, rfl⟩
  · exact .inr (errorsRecoverable_of_one (k := .segmentTimeout) (congrArg (· ++ _) hnone) (by simp [Terminal])
      (transferKept_refl s.ctx))
  · exact .inr (errorsRecoverable_of_none hnone)
  · exact .inr (finaliseLine_errors hnone)
  · rcases fileCrcGate_cases s with ⟨-, e'⟩ | ⟨-, e'⟩ <;> rw [e']
    · exact .inr (errorsRecoverable_of_none hnone)
    · exact .inl ⟨.fileChecksumError, .inr rfl, congrArg (· ++ _) hnone, rfl, rfl⟩
  · exact .inr (errorsRecoverable_of_none hnone)

/-- A frame raises `InitChecksumError` or `SegmentMismatch` at most, and then keeps the transfer. -/
theorem exec_opFrame_errors {buf : Frame} {now : Word} {s t : State} (h : exec (.opFrame buf now) s = .next t) :
    ErrorsRecoverable s.ctx t := by
  rcases exec_opFrame buf now s with ⟨-, e⟩ | ⟨-, e⟩ <;> rw [e] at h
  · cases h
    rcases processInit_cases (unpackInitFrame buf) { s.clearOutputs with now := now } with ⟨-, e'⟩ | ⟨-, e'⟩ <;>
      rw [e']
    · exact errorsRecoverable_of_none rfl
    · exact errorsRecoverable_of_one (k := .initChecksumError) rfl (by simp [Terminal]) (transferKept_refl s.ctx)
  · obtain ⟨n, b, l, f, k, hk, rfl⟩ := processSegment_frame h
    rcases hk with rfl | rfl
    · exact errorsRecoverable_of_none rfl
    · exact errorsRecoverable_of_one (k := .segmentMismatch) rfl (by simp [Terminal]) (transferKept_refl s.ctx)

theorem exec_port_errors {op : PortOp} {s t : State} (h : exec op.instr s = .next t) :
    EndedByError t ∨ ErrorsRecoverable s.ctx t := by
  cases op with
  | frame buf now => exact .inr (exec_opFrame_errors h)
  | tick now =>
    cases h
    exact tickSteps_errors (s := s.sampled now) rfl
  | reset | abort | qInProgress | qComplete =>
    cases h
    exact .inr (errorsRecoverable_of_none rfl)

/-- Settles O55: an operation that raises a terminal kind raises nothing else, and one that raises others keeps the
transfer. -/
theorem onlyTwoErrorsAreTerminal : Obligations.OnlyTwoErrorsAreTerminal := by
  intro s t r rest k hport h hk
  rw [step_request hport] at h
  rcases exec_port_errors h with ⟨j, hterminal, hraised, hctx, hret⟩ | hrecoverable
  · rw [hraised, List.mem_singleton] at hk
    subst hk
    exact ⟨fun _ => ⟨hctx, hret⟩, fun ⟨hne, hne'⟩ => absurd hterminal (not_or_intro hne hne')⟩
  · obtain ⟨hnot, hkept⟩ := hrecoverable k hk
    exact ⟨fun hterminal => absurd hterminal hnot, fun _ => hkept⟩

end Sys2Proof.Machine
end
